-- ==== Sys2Proof/Word.lean ====
section
/-! DEFINITION. The one word type of the machine: the unsigned byte (rules R4, R20). -/

namespace Sys2Proof

/-- A byte: eight bits, read as an unsigned number 0..255 (rule R4, `BYTE`). Registers, the flags register,
memory cells, opcodes and operand bytes are all of this type. -/
abbrev Byte := BitVec 8

end Sys2Proof
end

