-- ==== Sys2Proof/Machine/Flags.lean ====
section
/-! DEFINITION. The flags register's patterns, the comparison that makes them, and the EQUAL test
(rules R111, R115, R116). The bit positions are the spec's, from general knowledge (decision D8; log entry 15). -/

namespace Sys2Proof.Machine

/-- EQUAL: bit 0 (rule R115). -/
def flagEqual : Byte := 0x01

/-- GREATER_THAN: bit 1 (rule R115). -/
def flagGreater : Byte := 0x02

/-- LESS_THAN: bit 2 (rule R115). -/
def flagLess : Byte := 0x04

/-- The flags value of an unsigned comparison: exactly one pattern, nothing accumulated (rules R111, R114). -/
def compareFlags (va vb : Byte) : Byte :=
  if va.toNat = vb.toNat then flagEqual else if va.toNat > vb.toNat then flagGreater else flagLess

/-- "Equal-flag set" means `fl[0] = 1`; no other bit is read (rule R116). -/
def equalSet (fl : Byte) : Bool := fl.getLsbD 0

end Sys2Proof.Machine
end

