-- ==== Sys2Proof/Config.lean ====
section
/-! DEFINITION. What an implementation fixes (rule R5): the opcode table `OPCODES`, the two Boolean parameters,
and the launch arguments. The spec leaves no instruction's result open, so there is no free value here. -/

namespace Sys2Proof

/-- The 13 mnemonics, the keys of `OPCODES` (rules R5, R64). -/
inductive Mnemonic where
  | hlt | ldi | prn | mul | add | push | pop | call | ret | cmp | jmp | jeq | jne
  deriving DecidableEq, Repr

/-- All mnemonics, in the order in which rule R64's `Decode` tries them. -/
def Mnemonic.all : List Mnemonic :=
  [.hlt, .ldi, .prn, .mul, .add, .push, .pop, .call, .ret, .cmp, .jmp, .jeq, .jne]

/-- How many operand bytes an instruction has (rule R62's table of shapes). -/
def Mnemonic.operandCount : Mnemonic → Nat
  | .hlt | .ret => 0
  | .prn | .push | .pop | .call | .jmp | .jeq | .jne => 1
  | .ldi | .mul | .add | .cmp => 2

/-- The configuration table `OPCODES`: a byte for each mnemonic (rules R5, R63). -/
structure Opcodes where
  hlt : Byte
  ldi : Byte
  prn : Byte
  mul : Byte
  add : Byte
  push : Byte
  pop : Byte
  call : Byte
  ret : Byte
  cmp : Byte
  jmp : Byte
  jeq : Byte
  jne : Byte
  deriving DecidableEq, Repr

/-- `OPCODES[m]` (rule R64). -/
def Opcodes.byte (t : Opcodes) : Mnemonic → Byte
  | .hlt => t.hlt
  | .ldi => t.ldi
  | .prn => t.prn
  | .mul => t.mul
  | .add => t.add
  | .push => t.push
  | .pop => t.pop
  | .call => t.call
  | .ret => t.ret
  | .cmp => t.cmp
  | .jmp => t.jmp
  | .jeq => t.jeq
  | .jne => t.jne

/-- The parameters a step consults (rule R5). They are fixed for a machine: no step changes them. -/
structure Config where
  /-- `OPCODES` (rules R5, R63, decision D1). -/
  opcodes : Opcodes
  /-- `MUL_EMITS_OUTPUT` (rules R5, R113, decision D6). -/
  mulEmitsOutput : Bool
  /-- `PREFETCH_OOB_FAULTS` (rules R5, R82, decision D15). -/
  prefetchOobFaults : Bool
  deriving DecidableEq, Repr

/-- The launch arguments of rule R5: `INIT_REGS`, `INIT_FL` and `IMAGE`. The spec leaves the first two
unspecified (decisions D10, D11): claims about a launch hold for every value of them. -/
structure LaunchArgs where
  /-- `INIT_REGS`: the reset values of R0..R6. -/
  initRegs : Vector Byte 7
  /-- `INIT_FL`: the reset value of the flags register. -/
  initFl : Byte
  /-- `IMAGE`: the program image, placed in memory from address 0 (rule R183). -/
  image : List Byte
  deriving DecidableEq, Repr

end Sys2Proof
end

