-- ==== Sys2Proof/Syntax.lean ====
section
/-! DEFINITION. The instruction set as syntax: one constructor per row of the opcode table (rules R62, R85). -/

namespace Sys2Proof

/-- The closed set of 13 instructions (rules R64, R85). A register-index operand is a whole byte, so every value
0..255 is a term; 8..255 names no register and the instruction then raises a fault when it executes (rule R67). -/
inductive Instr where
  /-- HLT: stop execution (rule R86). -/
  | hlt
  /-- LDI Rn, imm: load an immediate byte (rule R100). -/
  | ldi (n imm : Byte)
  /-- PRN Rn: output the value of a register (rule R101). -/
  | prn (n : Byte)
  /-- MUL Ra, Rb: multiply (rule R113). -/
  | mul (a b : Byte)
  /-- ADD Ra, Rb: add (rule R112). -/
  | add (a b : Byte)
  /-- PUSH Rn (rule R130). -/
  | push (n : Byte)
  /-- POP Rn (rule R131). -/
  | pop (n : Byte)
  /-- CALL Rn (rule R132). -/
  | call (n : Byte)
  /-- RET (rule R133). -/
  | ret
  /-- CMP Ra, Rb: compare and set the comparison state (rule R114). -/
  | cmp (a b : Byte)
  /-- JMP Rn (rule R150). -/
  | jmp (n : Byte)
  /-- JEQ Rn: jump if the EQUAL flag is set (rule R151). -/
  | jeq (n : Byte)
  /-- JNE Rn: jump if the EQUAL flag is clear (rule R152). -/
  | jne (n : Byte)
  deriving DecidableEq, Repr

end Sys2Proof
end

