-- ==== Sys2Proof/WellFormed.lean ====
section
/-! DEFINITION. Which instructions, opcode tables and images are well formed (rules R65, R67, R183). -/

namespace Sys2Proof

/-- A register-index operand selects a register exactly when it is 0..7 (rule R67). -/
def regOk (n : Byte) : Bool := decide (n.toNat < 8)

/-- An instruction is well formed when every register operand it has selects a register (rule R67). An ill-formed
instruction still has an encoding; executing it raises `OutOfBounds(RegisterIndex)`. -/
def Instr.wf : Instr → Bool
  | .hlt | .ret => true
  | .ldi n _ => regOk n
  | .prn n | .push n | .pop n | .call n | .jmp n | .jeq n | .jne n => regOk n
  | .mul a b | .add a b | .cmp a b => regOk a && regOk b

/-- The 13 values of an opcode table, in rule R64's order. -/
def Opcodes.values (t : Opcodes) : List Byte := Mnemonic.all.map t.byte

/-- Bits 7..6 of an opcode byte: the operand count it announces (rule R61). -/
def topBits (op : Byte) : Nat := op.toNat / 64

/-- Rule R65: the 13 values are distinct, and bits 7..6 of each equal the operand count of its mnemonic. -/
def Opcodes.admissible (t : Opcodes) : Bool :=
  decide t.values.Nodup && Mnemonic.all.all fun m => topBits (t.byte m) == m.operandCount

/-- An image is at most 256 bytes long (rule R183). -/
def imageFits (image : List Byte) : Bool := decide (image.length ≤ 256)

end Sys2Proof
end

