-- ==== Sys2Proof/Decode.lean ====
section
/-! DEFINITION. The default opcode table, the decoder and the encoder (rules R60 to R68, R82, R83). -/

namespace Sys2Proof

/-- The default `OPCODES`: rule R63's table. The source gives no byte values; the spec takes those of the LS-8
convention from general knowledge (decision D1; log entry 2, PRESUMED). -/
def Opcodes.ls8 : Opcodes where
  hlt := 0x01
  ldi := 0x82
  prn := 0x47
  mul := 0xA2
  add := 0xA0
  push := 0x45
  pop := 0x46
  call := 0x50
  ret := 0x11
  cmp := 0xA7
  jmp := 0x54
  jeq := 0x55
  jne := 0x56

/-- The width an opcode byte announces, `1 + op[7:6]` (rules R61, R83). -/
def opcodeWidth (op : Byte) : Nat := 1 + topBits op

/-- Why bytes are no instruction. The machine turns each into the fault rule R160 names for it. -/
inductive DecodeError where
  /-- The byte matches no value of `OPCODES` (rules R64, R66). -/
  | invalidOpcode (op : Byte)
  /-- Operand byte `k` (1 or 2), which the instruction consumes, is absent (rule R83). -/
  | missingOperand (k : Nat)
  /-- There is no opcode byte at all. -/
  | noOpcode
  deriving DecidableEq, Repr

/-- Whole-byte match of the opcode against `OPCODES`, in rule R64's order. -/
def decodeOpcode (t : Opcodes) (op : Byte) : Option Mnemonic :=
  Mnemonic.all.find? fun m => op == t.byte m

/-- The instruction a mnemonic and its two candidate operand bytes form: operand 1 is a register index, operand 2 an
immediate (LDI) or a register index, and bytes the shape does not have are ignored (rules R62, R67, R68). -/
def Mnemonic.withOperands (m : Mnemonic) (b1 b2 : Byte) : Instr :=
  match m with
  | .hlt => .hlt
  | .ldi => .ldi b1 b2
  | .prn => .prn b1
  | .mul => .mul b1 b2
  | .add => .add b1 b2
  | .push => .push b1
  | .pop => .pop b1
  | .call => .call b1
  | .ret => .ret
  | .cmp => .cmp b1 b2
  | .jmp => .jmp b1
  | .jeq => .jeq b1
  | .jne => .jne b1

/-- Decode an opcode and its pre-fetched bytes, `none` standing for ABSENT: match the opcode, then check the operand
bytes that its width says it consumes, operand 1 first (rules R82, R83, R164 steps 3 and 4). -/
def decode (t : Opcodes) (op : Byte) (b1 b2 : Option Byte) : Except DecodeError Instr :=
  match decodeOpcode t op with
  | none => .error (.invalidOpcode op)
  | some m =>
    if opcodeWidth op ≥ 2 && b1.isNone then .error (.missingOperand 1)
    else if opcodeWidth op == 3 && b2.isNone then .error (.missingOperand 2)
    else .ok (m.withOperands (b1.getD 0) (b2.getD 0))

/-- Decode the instruction at the head of a list of bytes and return it with the bytes after it (rule R60). -/
def decodeBytes (t : Opcodes) : List Byte → Except DecodeError (Instr × List Byte)
  | [] => .error .noOpcode
  | op :: rest =>
    match decode t op rest[0]? rest[1]? with
    | .ok i => .ok (i, rest.drop (topBits op))
    | .error e => .error e

/-- The mnemonic of an instruction (rule R62). -/
def Instr.mnemonic : Instr → Mnemonic
  | .hlt => .hlt
  | .ldi _ _ => .ldi
  | .prn _ => .prn
  | .mul _ _ => .mul
  | .add _ _ => .add
  | .push _ => .push
  | .pop _ => .pop
  | .call _ => .call
  | .ret => .ret
  | .cmp _ _ => .cmp
  | .jmp _ => .jmp
  | .jeq _ => .jeq
  | .jne _ => .jne

/-- The operand bytes of an instruction, in the order in which they stand in memory (rules R60, R62). -/
def Instr.operands : Instr → List Byte
  | .hlt | .ret => []
  | .ldi n imm => [n, imm]
  | .prn n | .push n | .pop n | .call n | .jmp n | .jeq n | .jne n => [n]
  | .mul a b | .add a b | .cmp a b => [a, b]

/-- The number of bytes of an instruction, `1 + operand_count` (rule R61, the width column of rule R62). -/
def Instr.width (i : Instr) : Nat := 1 + i.mnemonic.operandCount

/-- The bytes of an instruction: its opcode, then its operands (rules R60, R69). -/
def encode (t : Opcodes) (i : Instr) : List Byte := t.byte i.mnemonic :: i.operands

/-- The byte number `k` of an instruction given as one number: bit 0 is the least significant bit of the first
byte, and a later byte's bits count on from it. -/
def tableByte (w k : Nat) : Byte := BitVec.ofNat 8 (w / 256 ^ k)

/-- The three bytes of an instruction of `nbits` bits given as one number, the bits above `nbits` zero. -/
def tableBytes (nbits w : Nat) : List Byte :=
  [tableByte (w % 2 ^ nbits) 0, tableByte (w % 2 ^ nbits) 1, tableByte (w % 2 ^ nbits) 2]

/-- What the decoder reads, under the default `OPCODES`, from an instruction given as one number. -/
def decodeTableWord (nbits w : Nat) : Option Instr :=
  match decodeBytes Opcodes.ls8 (tableBytes nbits w) with
  | .ok (i, _) => some i
  | .error _ => none

end Sys2Proof
end

