-- ==== Sys2Proof/Machine/Defaults.lean ====
section
/-! DEFINITION. The default values of the parameters of rule R5. -/

namespace Sys2Proof

/-- Rule R5's defaults: the LS-8 opcode table (D1), MUL emits its product (D6), an unconsumed pre-fetch byte
above address 255 has no effect (D15). Log entries 2 and 11. -/
def Config.default : Config where
  opcodes := Opcodes.ls8
  mulEmitsOutput := true
  prefetchOobFaults := false

end Sys2Proof
end

