-- ==== Sys2Proof/Machine/State.lean ====
section
/-! DEFINITION. The state of the block as plain data (rules R20 to R33), its fault record (R160, R161), the two ways
a step of the model can stop, and the state after reset (R32). -/

namespace Sys2Proof.Machine

/-- The five kinds of `OutOfBounds` (rule R160). -/
inductive BoundsKind where
  /-- 3.0: an opcode fetch or a needed operand byte above address 255. -/
  | fetch
  /-- 3.1: a register-index operand above 7. -/
  | registerIndex
  /-- 3.2: a push with SP = 0. -/
  | stackOverflow
  /-- 3.3: a pop whose incremented SP would be 256. -/
  | stackUnderflow
  /-- 3.4: a CALL whose return address does not fit a byte. -/
  | returnAddress
  deriving DecidableEq, Repr

/-- The faults the block raises (rule R160). -/
inductive FaultKind where
  /-- 1: the byte at `pc` matches no `OPCODES` value. -/
  | invalidOpcode
  /-- 2: an ALU tag outside ADD, SUB, MUL, CMP; unreachable under the decoder (rule R117). -/
  | unsupportedAluOperation
  /-- 3: an index or address outside its range. -/
  | outOfBounds (kind : BoundsKind)
  deriving DecidableEq, Repr

/-- The fault record (rule R161): the fault, the info of rule R160, and the address of the faulting
instruction's opcode. Its numeric code is `FaultKind.code`. -/
structure FaultRecord where
  kind : FaultKind
  info : Nat
  pc : Nat
  deriving DecidableEq, Repr

/-- The run state (rule R26). -/
inductive RunState where
  | running
  | halted
  | faulted (record : FaultRecord)
  deriving DecidableEq, Repr

/-- Memory as a list of address and byte in rising order of address, listing no zero byte: an unlisted address
reads as 0, since memory is zero-initialised (rules R29, R32). -/
abbrev Memory := List Host.Cell

/-- The complete state of the block, the tuple of 10_state.md, with the configuration of rule R5 beside it. -/
structure State where
  /-- The parameters of rule R5 (not state of the block: no step changes them; log entry 1). -/
  cfg : Config
  /-- The register file, `x[7]` = SP (rules R20 to R22). -/
  x : Vector Byte 8
  /-- The program counter, 0..256 (rule R23). -/
  pc : Nat
  /-- The flags register (rule R25). -/
  fl : Byte
  /-- The 256 bytes of memory (rule R29). -/
  mem : Memory
  /-- The output stream, oldest value first (rule R27). -/
  out : List Nat
  /-- The run state (rule R26). -/
  run : RunState
  deriving DecidableEq, Repr

/-- Why a step of the model stops without a next state. A fault of the BLOCK is not one of these: it is a next state
whose `run` is `faulted` (rules R26, R162). -/
inductive Fault where
  /-- Raised by `step` when the block is Halted: there is no step, the loop has terminated (rules R26, R80; log
  entry 5). Safe: the state stays what it was. -/
  | blockHalted
  /-- Raised by `step` when the block is Faulted: the state is final and absorbing (rules R26, R80, R163; log
  entry 5). Safe: the state stays what it was. -/
  | blockFaulted (record : FaultRecord)
  deriving DecidableEq, Repr

/-- What the model declines. -/
inductive Refusal where
  /-- An instruction with no meaning yet, by its mnemonic; no arm of `exec` answers it. Safe. -/
  | notModelled (mnemonic : String)
  /-- Raised by `step` and by `launch` for an `OPCODES` table that is not admissible: "A model refuses any other
  configuration" (rule R65; log entry 6). Safe: no claim is made of such a machine. -/
  | inadmissibleOpcodes
  /-- Raised by `launch` for an image longer than 256 bytes: "the block is not started" (rule R183). Safe. -/
  | imageTooLong
  deriving DecidableEq, Repr

/-- The state right after reset (rule R32), under the default configuration, with the empty image. The spec gives
R0..R6 and FL no value: here they are 0 (log entry 3, DESIGN CHOICE); `launch` takes any values. -/
def State.reset : State where
  cfg := Config.default
  x := #v[0, 0, 0, 0, 0, 0, 0, 0xF4]
  pc := 0
  fl := 0
  mem := []
  out := []
  run := .running

end Sys2Proof.Machine
end

