-- ==== Sys2Proof/Machine/Memory.lean ====
section
/-! DEFINITION. The operations over memory and its one canonical form (rules R29, R40 to R45). -/

namespace Sys2Proof.Machine

/-- The byte listed at an address, and 0 where none is listed (rule R32). -/
def Memory.read : Memory → Nat → Byte
  | [], _ => 0
  | (b, v) :: m, a => if b = a then v else Memory.read m a

/-- Memory with nothing listed at an address. -/
def Memory.erase : Memory → Nat → Memory
  | [], _ => []
  | (b, v) :: m, a => if b = a then Memory.erase m a else (b, v) :: Memory.erase m a

/-- Memory with one more cell, in rising order of address. -/
def Memory.insert : Memory → Nat → Byte → Memory
  | [], a, v => [(a, v)]
  | (b, w) :: m, a, v => if a < b then (a, v) :: (b, w) :: m else (b, w) :: Memory.insert m a v

/-- Write a byte. A zero byte is not listed, so that equal memories are equal data. -/
def Memory.write (m : Memory) (a : Nat) (v : Byte) : Memory :=
  if v = 0 then m.erase a else (m.erase a).insert a v

/-- The canonical form from an address on: addresses strictly rising and below 256, no zero byte listed. -/
def Memory.wfFrom : Nat → Memory → Bool
  | _, [] => true
  | lo, (a, v) :: m => decide (lo ≤ a) && decide (a < 256) && decide (v ≠ 0) && Memory.wfFrom (a + 1) m

/-- The canonical form of memory. -/
def Memory.wf (m : Memory) : Bool := Memory.wfFrom 0 m

/-- The memory that holds an image from address `a` on and zero elsewhere (rules R32, R183). -/
def Memory.image : Nat → List Byte → Memory
  | _, [] => []
  | a, v :: vs => if v = 0 then Memory.image (a + 1) vs else (a, v) :: Memory.image (a + 1) vs

end Sys2Proof.Machine
end

