-- ==== Sys2Proof/Machine/Ops.lean ====
section
/-! DEFINITION. The named operations over the state: registers, memory port, output port, the PC multiplexer, and
raising a fault (rules R8, R9, R20 to R23, R41, R84, R134, R160 to R162). -/

namespace Sys2Proof.Machine

/-- The index of the stack pointer, `SP_INDEX` (rules R4, R22). -/
abbrev spIndex : Fin 8 := 7

/-- `x[i]` read (rule R20). -/
def State.reg (s : State) (i : Fin 8) : Byte := s.x[i]

/-- `x[i] <- v` (rules R20, R21): no register is hardwired. -/
def State.setReg (s : State) (i : Fin 8) (v : Byte) : State := { s with x := s.x.set i v }

/-- SP, a synonym for `x[7]` (rule R22). -/
def State.sp (s : State) : Byte := s.reg spIndex

/-- `sp <- v` (rule R22). -/
def State.setSp (s : State) (v : Byte) : State := s.setReg spIndex v

/-- `fl <- v` (rule R25). -/
def State.setFl (s : State) (v : Byte) : State := { s with fl := v }

/-- `MemRead(addr, 1)` for an address of the memory port, which is 8 bits and so always in range (rules R8, R41). -/
def State.memRead (s : State) (addr : Byte) : Byte := s.mem.read addr.toNat

/-- `MemWrite(addr, 1, v)` (rules R8, R41). -/
def State.memWrite (s : State) (addr : Byte) (v : Byte) : State := { s with mem := s.mem.write addr.toNat v }

/-- The byte at a computed address, `none` (ABSENT) above 255: no address wraps (rules R41, R82). -/
def State.memByte? (s : State) (a : Nat) : Option Byte := if a ≤ 255 then some (s.mem.read a) else none

/-- `Emit(v)`: append a value to the output stream (rules R9, R27). -/
def State.emit (s : State) (v : Nat) : State := { s with out := s.out ++ [v] }

/-- The next-PC sources of rule R84. -/
inductive PcSelect where
  /-- SEQ: `pc + w`, where `w` is the instruction's width. -/
  | seq (w : Nat)
  /-- REG: the value of the instruction's register operand. -/
  | reg (target : Byte)
  /-- STACK: the byte popped from the stack. -/
  | stack (target : Byte)
  /-- HOLD: unchanged. -/
  | hold
  deriving DecidableEq, Repr

/-- The value the PC multiplexer selects. SEQ does not wrap: it may yield 256 (rules R23, R24, R84). -/
def PcSelect.value (sel : PcSelect) (pc : Nat) : Nat :=
  match sel with
  | .seq w => pc + w
  | .reg target => target.toNat
  | .stack target => target.toNat
  | .hold => pc

/-- The PC multiplexer: the one write of `pc` by an instruction (rules R23, R84). -/
def State.selectPc (s : State) (sel : PcSelect) : State := { s with pc := sel.value s.pc }

/-- The state of a fault: `run <- Faulted(record)` and nothing else, the record holding the fault, its info and the
address of the faulting instruction (rules R161, R162). -/
def State.trap (s : State) (kind : FaultKind) (info : Nat) : State :=
  { s with run := .faulted { kind := kind, info := info, pc := s.pc } }

/-- `raise <Fault>(info)`: taking a fault, the block's only exception, as one shared operation (rules R160 to R162).
It is a next state. There is no return from it: no handler ever runs and only reset leaves Faulted (rule R163). -/
def raiseFault (s : State) (kind : FaultKind) (info : Nat) : Host.Outcome State Fault Refusal :=
  .next (s.trap kind info)

/-- `SP -= 1`, the first statement of a push (rules R130, R132, R134). -/
def State.decSp (s : State) : State := s.setSp (s.sp - 1)

/-- The rest of a push: write a byte at the new SP (rule R134). -/
def State.storeTop (s : State) (v : Byte) : State := s.memWrite s.sp v

/-- The byte a pop reads: `MemRead(x[7], 1)` (rule R134). -/
def State.top (s : State) : Byte := s.memRead s.sp

/-- Does `v + 1` fit a byte? The bound check of POP and RET (rules R131, R133, R134). -/
def fitsAfterIncrement (v : Byte) : Bool := decide (v.toNat + 1 ≤ 255)

/-- The two numbers of a fault's code, 1, 2 or 3.0 to 3.4 (rule R160); codes 1 and 2 have no second number. -/
def FaultKind.code : FaultKind → Nat × Option Nat
  | .invalidOpcode => (1, none)
  | .unsupportedAluOperation => (2, none)
  | .outOfBounds .fetch => (3, some 0)
  | .outOfBounds .registerIndex => (3, some 1)
  | .outOfBounds .stackOverflow => (3, some 2)
  | .outOfBounds .stackUnderflow => (3, some 3)
  | .outOfBounds .returnAddress => (3, some 4)

end Sys2Proof.Machine
end

