-- ==== Sys2Proof/Machine/Operands.lean ====
section
/-! DEFINITION. The register-index operand and its bound check (rules R62, R67). The immediate operand (rule R68) is
the operand byte itself and needs no operation. -/

namespace Sys2Proof.Machine

/-- The register an operand byte selects: 0..7 select R0..R7, 8..255 none; the index is not masked (rule R67). -/
def regOperand? (n : Byte) : Option (Fin 8) := if h : n.toNat < 8 then some ⟨n.toNat, h⟩ else none

/-- Check one register operand and go on with its register, or raise `OutOfBounds(RegisterIndex, n)` (rule R67). -/
def withReg (n : Byte) (s : State) (k : Fin 8 → Host.Outcome State Fault Refusal) :
    Host.Outcome State Fault Refusal :=
  match regOperand? n with
  | some r => k r
  | none => raiseFault s (.outOfBounds .registerIndex) n.toNat

/-- Check two register operands, operand 1 first (rules R67, R164 step 5). -/
def withRegs (a b : Byte) (s : State) (k : Fin 8 → Fin 8 → Host.Outcome State Fault Refusal) :
    Host.Outcome State Fault Refusal :=
  withReg a s fun ra => withReg b s fun rb => k ra rb

end Sys2Proof.Machine
end

