-- ==== Sys2Proof/Machine/Alu.lean ====
section
/-! DEFINITION. The ALU, a pure function of a tag and two bytes (rules R110, R111, R117), and the writing of its
results by an instruction (rules R112 to R114). -/

namespace Sys2Proof.Machine

/-- An operation tag. The ALU supports ADD, SUB, MUL and CMP (rule R110); `other k` stands for a tag outside the
set, number `k` telling such tags apart (log entry 9). -/
inductive AluTag where
  | add
  | sub
  | mul
  | cmp
  | other (k : Nat)
  deriving DecidableEq, Repr

/-- What the ALU answers (rule R111's table, `none` where it has a dash): a byte result, the exact product (MUL
alone), and a flags value (CMP alone). -/
structure AluOut where
  result : Option Byte := none
  product : Option Nat := none
  flags : Option Byte := none
  deriving DecidableEq, Repr

/-- The low byte of an exact result: the one overflow policy is modulo 256 (rules R21, R111). -/
def lowByte (n : Nat) : Byte := BitVec.ofNat 8 (n % 256)

/-- ADD: the sum modulo 256 (rule R111). -/
def aluAdd (va vb : Byte) : Byte := lowByte (va.toNat + vb.toNat)

/-- SUB: the difference modulo 256, the non-negative remainder (rule R111). No instruction asks for it (rule R117). -/
def aluSub (va vb : Byte) : Byte := lowByte (((va.toNat : Int) - (vb.toNat : Int)) % 256).toNat

/-- MUL's exact product, 0..65025 (rule R111). -/
def aluProduct (va vb : Byte) : Nat := va.toNat * vb.toNat

/-- The ALU: the answer of rule R111, or the unsupported tag (rule R110). -/
def alu (tag : AluTag) (va vb : Byte) : Except Nat AluOut :=
  match tag with
  | .add => .ok { result := some (aluAdd va vb) }
  | .sub => .ok { result := some (aluSub va vb) }
  | .mul => .ok { result := some (lowByte (aluProduct va vb)), product := some (aluProduct va vb) }
  | .cmp => .ok { flags := some (compareFlags va vb) }
  | .other k => .error k

/-- Write what the ALU answered: the byte into register `ra`, the product to the output port if MUL emits output,
the flags value into `fl` (rules R112, R113, R114; 90_conflicts.md C1, C9). -/
def State.writeAlu (s : State) (ra : Fin 8) (o : AluOut) : State :=
  let s1 := match o.result with
    | some v => s.setReg ra v
    | none => s
  let s2 := match o.product with
    | some p => if s.cfg.mulEmitsOutput then s1.emit p else s1
    | none => s1
  match o.flags with
  | some f => s2.setFl f
  | none => s2

/-- The shared form of MUL, ADD and CMP: check both operands, read both registers, ask the ALU, write, advance by
3 (rules R110 to R114); an unsupported tag raises `UnsupportedALUOperation` (rules R110, R160). -/
def aluInstr (tag : AluTag) (a b : Byte) (s : State) : Host.Outcome State Fault Refusal :=
  withRegs a b s fun ra rb =>
    match alu tag (s.reg ra) (s.reg rb) with
    | .ok o => .next ((s.writeAlu ra o).selectPc (.seq 3))
    | .error k => raiseFault s .unsupportedAluOperation k

end Sys2Proof.Machine
end

