-- ==== Sys2Proof/Machine/AluInstr.lean ====
section
/-! DEFINITION. The meanings of MUL, ADD and CMP (42_alu.md). -/

namespace Sys2Proof.Machine

/-- MUL Ra, Rb: store the product modulo 256 in Ra, and emit the exact product if `MUL_EMITS_OUTPUT`
(rule R113). -/
def execMul (a b : Byte) (s : State) : Host.Outcome State Fault Refusal := aluInstr .mul a b s

/-- ADD Ra, Rb: store the sum modulo 256 in Ra (rule R112). -/
def execAdd (a b : Byte) (s : State) : Host.Outcome State Fault Refusal := aluInstr .add a b s

/-- CMP Ra, Rb: write the comparison state to `fl` (rule R114). -/
def execCmp (a b : Byte) (s : State) : Host.Outcome State Fault Refusal := aluInstr .cmp a b s

end Sys2Proof.Machine
end

