-- ==== Sys2Proof/Machine/Jumps.lean ====
section
/-! DEFINITION. The meanings of JMP, JEQ and JNE (44_jumps.md). -/

namespace Sys2Proof.Machine

/-- The shared form of the jumps: check the operand whether or not the jump is taken, then select REG or SEQ
(rules R84, R150 to R152). -/
def jumpIf (taken : Bool) (n : Byte) (s : State) : Host.Outcome State Fault Refusal :=
  withReg n s fun r => .next (s.selectPc (if taken then .reg (s.reg r) else .seq 2))

/-- JMP Rn (rule R150). -/
def execJmp (n : Byte) (s : State) : Host.Outcome State Fault Refusal := jumpIf true n s

/-- JEQ Rn: taken if the EQUAL flag is set (rule R151). -/
def execJeq (n : Byte) (s : State) : Host.Outcome State Fault Refusal := jumpIf (equalSet s.fl) n s

/-- JNE Rn: taken if the EQUAL flag is clear (rule R152). -/
def execJne (n : Byte) (s : State) : Host.Outcome State Fault Refusal := jumpIf (!equalSet s.fl) n s

end Sys2Proof.Machine
end

