-- ==== Sys2Proof/Machine/Loop.lean ====
section
/-! DEFINITION. The meaning of HLT (40_execute_loop.md). -/

namespace Sys2Proof.Machine

/-- HLT: `run <- Halted`; everything else, `pc` included, is unchanged (rules R84 HOLD, R86). -/
def execHlt (s : State) : Host.Outcome State Fault Refusal :=
  .next ({ s with run := .halted }.selectPc .hold)

end Sys2Proof.Machine
end

