-- ==== Sys2Proof/Machine/RegisterIo.lean ====
section
/-! DEFINITION. The meanings of LDI and PRN (41_register_io.md). -/

namespace Sys2Proof.Machine

/-- LDI Rn, imm: `x[n] <- imm` (rule R100). -/
def execLdi (n imm : Byte) (s : State) : Host.Outcome State Fault Refusal :=
  withReg n s fun r => .next ((s.setReg r imm).selectPc (.seq 3))

/-- PRN Rn: `Emit(x[n])` (rule R101). -/
def execPrn (n : Byte) (s : State) : Host.Outcome State Fault Refusal :=
  withReg n s fun r => .next ((s.emit (s.reg r).toNat).selectPc (.seq 2))

end Sys2Proof.Machine
end

