-- ==== Sys2Proof/Machine/Stack.lean ====
section
/-! DEFINITION. The meanings of PUSH, POP, CALL and RET (43_stack.md). Every check comes before every write; the
writes then run in the order of the rule, so an instruction that names R7 reads what the earlier statement wrote. -/

namespace Sys2Proof.Machine

/-- PUSH Rn: `SP -= 1; Memory[SP] = Reg[Rn]`, the register read after the decrement (rule R130). -/
def execPush (n : Byte) (s : State) : Host.Outcome State Fault Refusal :=
  withReg n s fun r =>
    if s.sp = 0 then raiseFault s (.outOfBounds .stackOverflow) 0
    else .next ((s.decSp.storeTop (s.decSp.reg r)).selectPc (.seq 2))

/-- The value that a POP's `SP += 1` increments: the popped byte for POP R7, SP otherwise (rule R131). -/
def spAfterLoad (s : State) (r : Fin 8) : Byte := if r = spIndex then s.top else s.sp

/-- POP Rn: `Reg[Rn] = Memory[SP]; SP += 1` (rule R131). -/
def execPop (n : Byte) (s : State) : Host.Outcome State Fault Refusal :=
  withReg n s fun r =>
    if fitsAfterIncrement (spAfterLoad s r) then
      .next (((s.setReg r s.top).setSp (spAfterLoad s r + 1)).selectPc (.seq 2))
    else raiseFault s (.outOfBounds .stackUnderflow) 256

/-- CALL Rn: `SP -= 1; Memory[SP] = PC+2; PC = Reg[Rn]`, the register read after the decrement (rule R132). -/
def execCall (n : Byte) (s : State) : Host.Outcome State Fault Refusal :=
  withReg n s fun r =>
    if s.sp = 0 then raiseFault s (.outOfBounds .stackOverflow) 0
    else if s.pc + 2 > 255 then raiseFault s (.outOfBounds .returnAddress) (s.pc + 2)
    else .next ((s.decSp.storeTop (BitVec.ofNat 8 (s.pc + 2))).selectPc (.reg (s.decSp.reg r)))

/-- RET: `PC = Memory[SP]; SP += 1` (rule R133). -/
def execRet (s : State) : Host.Outcome State Fault Refusal :=
  if fitsAfterIncrement s.sp then .next ((s.setSp (s.sp + 1)).selectPc (.stack s.top))
  else raiseFault s (.outOfBounds .stackUnderflow) 256

end Sys2Proof.Machine
end

