-- ==== Sys2Proof/Machine/Dispatch.lean ====
section
/-! DEFINITION. `Execute(ins, b1, b2, w)`: one arm per instruction (rule R85). -/

namespace Sys2Proof.Machine

def exec (i : Instr) (s : State) : Host.Outcome State Fault Refusal :=
  match i with
  | .hlt => Sys2Proof.Machine.execHlt s
  | .ldi n imm => Sys2Proof.Machine.execLdi n imm s
  | .prn n => Sys2Proof.Machine.execPrn n s
  | .mul a b => Sys2Proof.Machine.execMul a b s
  | .add a b => Sys2Proof.Machine.execAdd a b s
  | .push n => Sys2Proof.Machine.execPush n s
  | .pop n => Sys2Proof.Machine.execPop n s
  | .call n => Sys2Proof.Machine.execCall n s
  | .ret => Sys2Proof.Machine.execRet s
  | .cmp a b => Sys2Proof.Machine.execCmp a b s
  | .jmp n => Sys2Proof.Machine.execJmp n s
  | .jeq n => Sys2Proof.Machine.execJeq n s
  | .jne n => Sys2Proof.Machine.execJne n s

end Sys2Proof.Machine
end

