-- ==== Sys2Proof/Machine/Fetch.lean ====
section
/-! DEFINITION. The fetch stage of a step: opcode fetch, operand pre-fetch, decode and operand check
(rules R80 to R83), and the placing of an instruction where the next step fetches it. -/

namespace Sys2Proof.Machine

/-- The fault of rule R160 for what the decoder rejects, with its info (rules R83, R164). -/
def decodeFault (pc : Nat) : DecodeError → FaultKind × Nat
  | .invalidOpcode op => (.invalidOpcode, op.toNat)
  | .missingOperand k => (.outOfBounds .fetch, pc + k)
  | .noOpcode => (.outOfBounds .fetch, pc)

/-- Fetch and decode the instruction at `pc`, or the fault and info to raise: rules R81, R82 and R83 in their order.
Both operand bytes are read here, before the instruction writes anything (rules R31, R82). -/
def fetch (s : State) : Except (FaultKind × Nat) Instr :=
  match s.memByte? s.pc with
  | none => .error (.outOfBounds .fetch, s.pc)
  | some op =>
    let b1 := s.memByte? (s.pc + 1)
    let b2 := s.memByte? (s.pc + 2)
    if s.cfg.prefetchOobFaults && b1.isNone then .error (.outOfBounds .fetch, s.pc + 1)
    else if s.cfg.prefetchOobFaults && b2.isNone then .error (.outOfBounds .fetch, s.pc + 2)
    else
      match decode s.cfg.opcodes op b1 b2 with
      | .ok i => .ok i
      | .error e => .error (decodeFault s.pc e)

/-- What a step answers without fetching: a stopped block has no step (rules R26, R80), and a machine whose `OPCODES`
is not admissible is refused (rule R65). `none` where the block goes on to fetch. -/
def notStepping (s : State) : Option (Host.Outcome State Fault Refusal) :=
  match s.run with
  | .halted => some (.fault .blockHalted)
  | .faulted r => some (.fault (.blockFaulted r))
  | .running => if s.cfg.opcodes.admissible then none else some (.refused .inadmissibleOpcodes)

/-- Memory with bytes written from an address on; a byte that would fall above address 255 is left out. -/
def Memory.place (m : Memory) (a : Nat) : List Byte → Memory
  | [] => m
  | v :: vs => if a ≤ 255 then Memory.place (m.write a v) (a + 1) vs else m

/-- The state whose next step fetches the three bytes given: they stand at `pc`, which becomes 0 where three bytes do
not fit there, and the block is Running (log entry 8: this stands for the external load of rules R12, R183). -/
def State.placeInstr (s : State) (bytes : List Byte) : State :=
  let pc := if s.pc ≤ 253 then s.pc else 0
  { s with pc := pc, mem := s.mem.place pc bytes, run := .running }

end Sys2Proof.Machine
end

