-- ==== Sys2Proof/Machine/Step.lean ====
section
/-! DEFINITION. One step of the block (rule R80), and the placing of an instruction given as one number. -/

namespace Sys2Proof.Machine

/-- One step: only while Running, fetch and decode, then execute the instruction, or raise the fetch-stage fault
(rules R80 to R83, R85). -/
def step (s : State) : Host.Outcome State Fault Refusal :=
  match notStepping s with
  | some o => o
  | none =>
    match fetch s with
    | .ok i => exec i s
    | .error f => raiseFault s f.1 f.2

/-- The state with an instruction, given as one number of `nbits` bits, where `step` fetches next. -/
def State.withFetchWord (s : State) (nbits w : Nat) : State := s.placeInstr (tableBytes nbits w)

end Sys2Proof.Machine
end

