-- ==== Sys2Proof/Machine/Assembler.lean ====
section
/-! DEFINITION. Assembly text (rules R69, R70): a line is a list of characters. Outside the block; no step uses it. -/

namespace Sys2Proof

/-- The mnemonic as text (rule R69). -/
def Mnemonic.text : Mnemonic → List Char
  | .hlt => ['H', 'L', 'T']
  | .ldi => ['L', 'D', 'I']
  | .prn => ['P', 'R', 'N']
  | .mul => ['M', 'U', 'L']
  | .add => ['A', 'D', 'D']
  | .push => ['P', 'U', 'S', 'H']
  | .pop => ['P', 'O', 'P']
  | .call => ['C', 'A', 'L', 'L']
  | .ret => ['R', 'E', 'T']
  | .cmp => ['C', 'M', 'P']
  | .jmp => ['J', 'M', 'P']
  | .jeq => ['J', 'E', 'Q']
  | .jne => ['J', 'N', 'E']

/-- A decimal digit. -/
def digit? (c : Char) : Option Nat :=
  if '0'.toNat ≤ c.toNat ∧ c.toNat ≤ '9'.toNat then some (c.toNat - '0'.toNat) else none

/-- A run of decimal digits, read with an accumulator. -/
def decimalFrom : Nat → List Char → Option Nat
  | acc, [] => some acc
  | acc, c :: cs =>
    match digit? c with
    | some d => decimalFrom (10 * acc + d) cs
    | none => none

/-- An immediate in decimal, 0..255 (rules R68, R69). -/
def parseImm (text : List Char) : Option Byte :=
  if text.isEmpty then none
  else
    match decimalFrom 0 text with
    | some v => if v ≤ 255 then some (BitVec.ofNat 8 v) else none
    | none => none

/-- A register operand: `R` and its index in decimal, `R0` to `R7` (rule R69). -/
def parseReg : List Char → Option Byte
  | ['R', c] =>
    match digit? c with
    | some d => if d < 8 then some (BitVec.ofNat 8 d) else none
    | none => none
  | _ => none

/-- One line of assembly: the mnemonic, one space, the operands separated by a comma with optional spaces after it
(rule R69; log entry 13). A mnemonic outside the 13 is refused: there is no pseudo-instruction or directive (R70). -/
def assembleLine (line : List Char) : Option Instr :=
  match Mnemonic.all.find? fun m => m.text == line.takeWhile (· != ' ') with
  | none => none
  | some m =>
    let rest := line.dropWhile (· != ' ')
    let text := rest.drop 1
    let first := text.takeWhile (· != ',')
    let second := (text.dropWhile (· != ',')).drop 1 |>.dropWhile (· == ' ')
    if m.operandCount = 0 then (if rest.isEmpty then some (m.withOperands 0 0) else none)
    else if m.operandCount = 1 then
      match parseReg text with
      | some n => some (m.withOperands n 0)
      | none => none
    else
      match parseReg first, (if m = .ldi then parseImm second else parseReg second) with
      | some a, some b => some (m.withOperands a b)
      | _, _ => none

/-- An assembly program: each line gives its opcode byte and then its operand bytes (rule R69). -/
def assemble (t : Opcodes) : List (List Char) → Option (List Byte)
  | [] => some []
  | line :: rest =>
    match assembleLine line, assemble t rest with
    | some i, some bytes => some (encode t i ++ bytes)
    | _, _ => none

/-- A register operand as text. -/
def regText (n : Byte) : List Char := 'R' :: Nat.toDigits 10 n.toNat

/-- The assembly line of an instruction (rule R69). -/
def Instr.text (i : Instr) : List Char :=
  i.mnemonic.text ++
    match i with
    | .hlt | .ret => []
    | .ldi n imm => ' ' :: regText n ++ ',' :: Nat.toDigits 10 imm.toNat
    | .prn n | .push n | .pop n | .call n | .jmp n | .jeq n | .jne n => ' ' :: regText n
    | .mul a b | .add a b | .cmp a b => ' ' :: regText a ++ ',' :: regText b

end Sys2Proof
end

