-- ==== Sys2Proof/Machine/Launch.lean ====
section
/-! DEFINITION. Reset and the load interface, for every configuration and every launch argument
(rules R5, R12, R32, R65, R180, R183). -/

namespace Sys2Proof.Machine

/-- Reset: every piece of state in the value of rule R32, for a configuration and launch arguments (rule R180).
It depends on no earlier state, and is the only way out of Halted and Faulted (rules R163, R173). -/
def State.resetWith (c : Config) (l : LaunchArgs) : State where
  cfg := c
  x := l.initRegs.push 0xF4
  pc := 0
  fl := l.initFl
  mem := Memory.image 0 l.image
  out := []
  run := .running

/-- The load interface (rule R12): start the block from reset with an image, or refuse an `OPCODES` table that is not
admissible (rule R65) or an image longer than 256 bytes (rule R183). -/
def launch (c : Config) (l : LaunchArgs) : Except Refusal State :=
  if !c.opcodes.admissible then .error .inadmissibleOpcodes
  else if !imageFits l.image then .error .imageTooLong
  else .ok (State.resetWith c l)

end Sys2Proof.Machine
end

