-- ==== Sys2Proof/Machine/Ports.lean ====
section
/-! DEFINITION. What the host can read between steps: the status port (rules R10, R174), the output port (R9) and
the trace port (R11, R172). Each is a function of the state, so reading it changes nothing. -/

namespace Sys2Proof.Machine

/-- The outcome at the block boundary (rule R174). -/
inductive RunResult where
  | success
  | error
  deriving DecidableEq, Repr

/-- What the status port shows: the run state, with the fault record when Faulted, and the outcome once the run is
over (rules R10, R87, R174). -/
structure Status where
  run : RunState
  result : Option RunResult
  deriving DecidableEq, Repr

/-- Halted means success; Faulted, whatever the code, means error (rule R174). -/
def RunState.result? : RunState → Option RunResult
  | .running => none
  | .halted => some .success
  | .faulted _ => some .error

/-- The status port (rule R10). -/
def State.statusPort (s : State) : Status := { run := s.run, result := s.run.result? }

/-- The output port: the values emitted so far, oldest first (rules R9, R27). -/
def State.outputPort (s : State) : List Nat := s.out

/-- What the trace port shows (rule R11). -/
structure Trace where
  pc : Nat
  byte0 : Option Byte
  byte1 : Option Byte
  byte2 : Option Byte
  regs : Vector Byte 8
  deriving DecidableEq, Repr

/-- The trace port: the PC, the bytes at PC, PC+1 and PC+2, and the 8 registers; a byte whose address is 256 or more
is absent (rule R11). -/
def State.tracePort (s : State) : Trace where
  pc := s.pc
  byte0 := s.memByte? s.pc
  byte1 := s.memByte? (s.pc + 1)
  byte2 := s.memByte? (s.pc + 2)
  regs := s.x

end Sys2Proof.Machine
end

