-- ==== Sys2Proof/Machine/Run.lean ====
section
/-! DEFINITION. The run: steps until the block is Halted or Faulted (rule R87). -/

namespace Sys2Proof.Machine

/-- The state after at most `k` steps, staying where the block has stopped (rules R26, R87). -/
def State.runFor : Nat → State → State
  | 0, s => s
  | k + 1, s =>
    match step s with
    | .next t => State.runFor k t
    | .fault _ => s
    | .refused _ => s

end Sys2Proof.Machine
end

