-- ==== Sys2Proof/Safety.lean ====
section
/-! DEFINITION. The terms claims use: the invariant of the state, and what of a state a step may change. -/

namespace Sys2Proof.Machine

/-- What a fault record may hold: the info of rule R160's table, and an address the fault can be raised at
(a CALL at 254 for `ReturnAddress`; the last two bytes of memory, or 256, for `Fetch`). `UnsupportedALUOperation`
is unreachable (rule R117). -/
def FaultRecord.wf (r : FaultRecord) : Bool :=
  match r.kind with
  | .invalidOpcode => decide (r.info ≤ 255 ∧ r.pc ≤ 255)
  | .unsupportedAluOperation => false
  | .outOfBounds .fetch => decide (r.info = 256 ∧ 254 ≤ r.pc ∧ r.pc ≤ 256)
  | .outOfBounds .registerIndex => decide (8 ≤ r.info ∧ r.info ≤ 255 ∧ r.pc ≤ 255)
  | .outOfBounds .stackOverflow => decide (r.info = 0 ∧ r.pc ≤ 255)
  | .outOfBounds .stackUnderflow => decide (r.info = 256 ∧ r.pc ≤ 255)
  | .outOfBounds .returnAddress => decide (r.info = 256 ∧ r.pc = 254)

/-- A run state agrees with the program counter: a fault record is one the block can make and names the address at
which the block stands (rules R161, R162). -/
def RunState.wf (run : RunState) (pc : Nat) : Bool :=
  match run with
  | .running | .halted => true
  | .faulted r => r.wf && decide (r.pc = pc)

/-- The invariant of the state: `pc` is 0..256 (rule R23), memory is in its canonical form and within 0..255 (rule
R29), every emitted value is 0..65025 (rule R27), and the run state is sound (rules R161, R162). -/
def State.wf (s : State) : Bool :=
  decide (s.pc ≤ 256) && s.mem.wf && (s.out.all fun v => decide (v ≤ 65025)) && s.run.wf s.pc

/-- The next step fetches: the block is Running and its `OPCODES` is admissible (rules R26, R65, R80). -/
abbrev State.ready (s : State) : Prop := s.run = .running ∧ s.cfg.opcodes.admissible = true

/-- No pre-fetch byte faults on its own: `PREFETCH_OOB_FAULTS` is false, or all three bytes are in memory (R82). -/
abbrev State.prefetchOk (s : State) : Prop := s.cfg.prefetchOobFaults = true → s.pc ≤ 253

/-- The fetch-stage faults of one instruction: where its opcode stands at `pc` and a byte it consumes lies above 255,
or, with `PREFETCH_OOB_FAULTS`, any of the three bytes does, the step raises `OutOfBounds(Fetch, 256)` (R82, R83). -/
def FetchStageFaults (m : Mnemonic) : Prop :=
  ∀ s : State, s.ready → s.memByte? s.pc = some (s.cfg.opcodes.byte m) →
    256 < s.pc + 1 + m.operandCount ∨ (s.cfg.prefetchOobFaults = true ∧ 253 < s.pc) →
    step s = .next (s.trap (.outOfBounds .fetch) 256)

/-- The register-index operand bytes of an instruction (rule R62). -/
def registerOperands : Instr → List Byte
  | .hlt | .ret => []
  | .ldi n _ => [n]
  | .prn n | .push n | .pop n | .call n | .jmp n | .jeq n | .jne n => [n]
  | .mul a b | .add a b | .cmp a b => [a, b]

/-- Is the block Faulted (rule R26)? -/
def RunState.isFaulted : RunState → Bool
  | .faulted _ => true
  | .running | .halted => false

/-- The instruction has register `r` among its operands or uses it as SP (rule R22). -/
def usesReg (i : Instr) (r : Fin 8) : Bool :=
  match i with
  | .hlt => false
  | .ldi n _ | .prn n | .jmp n | .jeq n | .jne n => regOperand? n == some r
  | .mul a b | .add a b | .cmp a b => regOperand? a == some r || regOperand? b == some r
  | .push n | .pop n | .call n => regOperand? n == some r || r == spIndex
  | .ret => r == spIndex

end Sys2Proof.Machine
end

