-- ==== Sys2Proof/Certificates/Slice0/Obligations.lean ====
section
/-! DEFINITION. The statements about the model, for the provers. `exec i s` is rule R85's `Execute`, entered by a step
only while the block is Running; `s.trap kind info` is the state of rule R162: `s` with
`run := faulted ⟨kind, info, s.pc⟩` and nothing else changed. -/

open Sys2Proof Sys2Proof.Machine

/-! ## Encoding and decoding (30_encoding.md) -/

/-- Rule R63: the 13 default opcode bytes, each with bits 7..6 equal to its operand count, decode to their
instructions; 0xFF and 0x00 are not in the table. (The spec takes the values from general knowledge, decision D1.) -/
def Obligations.DefaultOpcodeBytesDecode : Prop :=
  (Mnemonic.all.map Opcodes.ls8.byte =
      [0x01, 0x82, 0x47, 0xA2, 0xA0, 0x45, 0x46, 0x50, 0x11, 0xA7, 0x54, 0x55, 0x56]) ∧
    (∀ m ∈ Mnemonic.all, (Opcodes.ls8.byte m).toNat / 64 = m.operandCount) ∧
    decodeBytes Opcodes.ls8 [0x01] = .ok (.hlt, []) ∧
    decodeBytes Opcodes.ls8 [0x82, 0x05, 0xFF] = .ok (.ldi 5 255, []) ∧
    decodeBytes Opcodes.ls8 [0x47, 0x03] = .ok (.prn 3, []) ∧
    decodeBytes Opcodes.ls8 [0xA2, 0x01, 0x02] = .ok (.mul 1 2, []) ∧
    decodeBytes Opcodes.ls8 [0xA0, 0x02, 0x01] = .ok (.add 2 1, []) ∧
    decodeBytes Opcodes.ls8 [0x45, 0x04] = .ok (.push 4, []) ∧
    decodeBytes Opcodes.ls8 [0x46, 0x05] = .ok (.pop 5, []) ∧
    decodeBytes Opcodes.ls8 [0x50, 0x06] = .ok (.call 6, []) ∧
    decodeBytes Opcodes.ls8 [0x11] = .ok (.ret, []) ∧
    decodeBytes Opcodes.ls8 [0xA7, 0x07, 0x00] = .ok (.cmp 7 0, []) ∧
    decodeBytes Opcodes.ls8 [0x54, 0x01] = .ok (.jmp 1, []) ∧
    decodeBytes Opcodes.ls8 [0x55, 0x02] = .ok (.jeq 2, []) ∧
    decodeBytes Opcodes.ls8 [0x56, 0x03] = .ok (.jne 3, []) ∧
    decodeBytes Opcodes.ls8 [0xFF] = .error (.invalidOpcode 0xFF) ∧
    decodeBytes Opcodes.ls8 [0x00] = .error (.invalidOpcode 0x00)

/-- Rules R60, R62, R64 (sections 1 to 3): under every admissible table, decoding the bytes of any instruction, whatever
follows them, gives the instruction and what follows. Every operand takes every byte value. -/
def Obligations.DecodeOfEncodeIsIdentity : Prop :=
  ∀ (t : Opcodes) (i : Instr) (rest : List Byte), t.admissible = true →
    decodeBytes t (encode t i ++ rest) = .ok (i, rest)

/-- Rules R60, R62, R64: under every admissible table, bytes that decode to an instruction are that instruction's
encoding followed by what the decoder returns. -/
def Obligations.EncodeOfDecodeIsIdentity : Prop :=
  ∀ (t : Opcodes) (bytes : List Byte) (i : Instr) (rest : List Byte), t.admissible = true →
    decodeBytes t bytes = .ok (i, rest) → bytes = encode t i ++ rest

/-- Rule R61: the operand count is bits 7..6 of the opcode byte, the width is one more, and 0b11 belongs to no
instruction. -/
def Obligations.OpcodeTopBitsGiveTheWidth : Prop :=
  ∀ t : Opcodes, t.admissible = true →
    (∀ i : Instr, (t.byte i.mnemonic).toNat / 64 = i.operands.length ∧
      (encode t i).length = 1 + (t.byte i.mnemonic).toNat / 64 ∧
      i.width = 1 + (t.byte i.mnemonic).toNat / 64) ∧
    (∀ op : Byte, op.toNat / 64 = 3 → ∀ b1 b2, decode t op b1 b2 = .error (.invalidOpcode op))

/-- Rule R64: decoding compares the whole opcode byte with the 13 values; a match selects that instruction, and no
match raises `InvalidOpcode(opcode)`. -/
def Obligations.DecodingMatchesTheWholeByte : Prop :=
  (∀ (t : Opcodes) (op : Byte) (m : Mnemonic), t.admissible = true →
    (decodeOpcode t op = some m ↔ op = t.byte m)) ∧
  (∀ (t : Opcodes) (op : Byte), decodeOpcode t op = none ↔ ∀ m, op ≠ t.byte m) ∧
  (∀ (s : State) (op : Byte), s.ready → s.prefetchOk → s.memByte? s.pc = some op →
    (∀ m, op ≠ s.cfg.opcodes.byte m) → step s = .next (s.trap .invalidOpcode op.toNat))

/-- Rule R66: 13 of the 256 byte values are instructions and the other 243 are illegal, each raising `InvalidOpcode`
when fetched, whatever bytes follow; in particular 0x00, 0xFF and 0xA1 under the default table. -/
def Obligations.IllegalOpcodesRaiseInvalidOpcode : Prop :=
  (∀ t : Opcodes, t.admissible = true →
    ((List.range 256).filter fun k => (decodeOpcode t (BitVec.ofNat 8 k)).isSome).length = 13 ∧
    ((List.range 256).filter fun k => (decodeOpcode t (BitVec.ofNat 8 k)).isNone).length = 243) ∧
  (∀ (s : State) (op : Byte), s.ready → s.prefetchOk → s.memByte? s.pc = some op →
    decodeOpcode s.cfg.opcodes op = none → step s = .next (s.trap .invalidOpcode op.toNat)) ∧
  (∀ op ∈ ([0x00, 0xFF, 0xA1] : List Byte), decodeOpcode Opcodes.ls8 op = none)

/-- Rule R65 (an inference the spec marks as its own): a table is admissible exactly when its values are distinct and
bits 7..6 of each are its operand count; the model refuses any other, at launch and at a step. -/
def Obligations.InadmissibleOpcodesAreRefused : Prop :=
  (∀ t : Opcodes, t.admissible = true ↔
    (∀ m m', t.byte m = t.byte m' → m = m') ∧ ∀ m, (t.byte m).toNat / 64 = m.operandCount) ∧
  (∀ (c : Config) (l : LaunchArgs), c.opcodes.admissible = false → launch c l = .error .inadmissibleOpcodes) ∧
  (∀ s : State, s.run = .running → s.cfg.opcodes.admissible = false → step s = .refused .inadmissibleOpcodes)

/-- Rule R67: operand bytes 0..7 select R0..R7; 8..255 select none, are not masked, and raise
`OutOfBounds(RegisterIndex, value)` with nothing written, in every instruction with a register operand (operand 1
before operand 2). -/
def Obligations.RegisterIndexAboveSevenFaults : Prop :=
  (∀ (n : Byte) (r : Fin 8), regOperand? n = some r ↔ n.toNat = r.val) ∧
  (∀ (s : State) (n imm : Byte), 8 ≤ n.toNat →
    ∀ i ∈ [Instr.ldi n imm, .prn n, .push n, .pop n, .call n, .jmp n, .jeq n, .jne n,
        .mul n imm, .add n imm, .cmp n imm],
      exec i s = .next (s.trap (.outOfBounds .registerIndex) n.toNat)) ∧
  (∀ (s : State) (a b : Byte), a.toNat < 8 → 8 ≤ b.toNat →
    ∀ i ∈ [Instr.mul a b, .add a b, .cmp a b],
      exec i s = .next (s.trap (.outOfBounds .registerIndex) b.toNat))

/-! ## The instructions (40_execute_loop.md to 44_jumps.md)

Each statement gives the encoding, the completion with the whole next state, and every fault of the rule. -/

/-- Rule R86, HLT: `run <- Halted`, everything else unchanged. -/
def Obligations.HltHalts : Prop :=
  (∀ t : Opcodes, encode t .hlt = [t.hlt]) ∧
  (∀ s : State, exec .hlt s = .next { s with run := .halted }) ∧
  FetchStageFaults .hlt

/-- Rules R68, R100, LDI: the immediate byte, unchanged, into register `n`. -/
def Obligations.LdiLoadsItsImmediate : Prop :=
  (∀ (t : Opcodes) (n imm : Byte), encode t (.ldi n imm) = [t.ldi, n, imm]) ∧
  (∀ (s : State) (n imm : Byte) (r : Fin 8), n.toNat = r.val →
    exec (.ldi n imm) s = .next { s with x := s.x.set r imm, pc := s.pc + 3 }) ∧
  (∀ (s : State) (n imm : Byte), 8 ≤ n.toNat →
    exec (.ldi n imm) s = .next (s.trap (.outOfBounds .registerIndex) n.toNat)) ∧
  FetchStageFaults .ldi

/-- Rule R101, PRN: the value of register `n` is appended to `out`. -/
def Obligations.PrnEmitsARegister : Prop :=
  (∀ (t : Opcodes) (n : Byte), encode t (.prn n) = [t.prn, n]) ∧
  (∀ (s : State) (n : Byte) (r : Fin 8), n.toNat = r.val →
    exec (.prn n) s = .next { s with out := s.out ++ [(s.reg r).toNat], pc := s.pc + 2 }) ∧
  (∀ (s : State) (n : Byte), 8 ≤ n.toNat →
    exec (.prn n) s = .next (s.trap (.outOfBounds .registerIndex) n.toNat)) ∧
  FetchStageFaults .prn

/-- Rule R113, MUL: the product modulo 256 into register `a`, and the exact product to `out` if
`MUL_EMITS_OUTPUT`. -/
def Obligations.MulStoresAndEmitsTheProduct : Prop :=
  (∀ (t : Opcodes) (a b : Byte), encode t (.mul a b) = [t.mul, a, b]) ∧
  (∀ (s : State) (a b : Byte) (ra rb : Fin 8), a.toNat = ra.val → b.toNat = rb.val →
    exec (.mul a b) s = .next { s with
      x := s.x.set ra (BitVec.ofNat 8 ((s.reg ra).toNat * (s.reg rb).toNat % 256)),
      out := if s.cfg.mulEmitsOutput then s.out ++ [(s.reg ra).toNat * (s.reg rb).toNat] else s.out,
      pc := s.pc + 3 }) ∧
  (∀ (s : State) (a b : Byte), 8 ≤ a.toNat →
    exec (.mul a b) s = .next (s.trap (.outOfBounds .registerIndex) a.toNat)) ∧
  (∀ (s : State) (a b : Byte), a.toNat < 8 → 8 ≤ b.toNat →
    exec (.mul a b) s = .next (s.trap (.outOfBounds .registerIndex) b.toNat)) ∧
  FetchStageFaults .mul

/-- Rule R112, ADD: the sum modulo 256 into register `a`; no flag changes. -/
def Obligations.AddStoresTheSum : Prop :=
  (∀ (t : Opcodes) (a b : Byte), encode t (.add a b) = [t.add, a, b]) ∧
  (∀ (s : State) (a b : Byte) (ra rb : Fin 8), a.toNat = ra.val → b.toNat = rb.val →
    exec (.add a b) s = .next { s with
      x := s.x.set ra (BitVec.ofNat 8 (((s.reg ra).toNat + (s.reg rb).toNat) % 256)),
      pc := s.pc + 3 }) ∧
  (∀ (s : State) (a b : Byte), 8 ≤ a.toNat →
    exec (.add a b) s = .next (s.trap (.outOfBounds .registerIndex) a.toNat)) ∧
  (∀ (s : State) (a b : Byte), a.toNat < 8 → 8 ≤ b.toNat →
    exec (.add a b) s = .next (s.trap (.outOfBounds .registerIndex) b.toNat)) ∧
  FetchStageFaults .add

/-- Rule R114, CMP: all of `fl` is written with the pattern of an unsigned comparison, whatever it held. -/
def Obligations.CmpWritesTheComparison : Prop :=
  (∀ (t : Opcodes) (a b : Byte), encode t (.cmp a b) = [t.cmp, a, b]) ∧
  (∀ (s : State) (a b : Byte) (ra rb : Fin 8), a.toNat = ra.val → b.toNat = rb.val →
    exec (.cmp a b) s = .next { s with
      fl := if (s.reg ra).toNat = (s.reg rb).toNat then 0x01
        else if (s.reg rb).toNat < (s.reg ra).toNat then 0x02 else 0x04,
      pc := s.pc + 3 }) ∧
  (∀ (s : State) (a b : Byte), 8 ≤ a.toNat →
    exec (.cmp a b) s = .next (s.trap (.outOfBounds .registerIndex) a.toNat)) ∧
  (∀ (s : State) (a b : Byte), a.toNat < 8 → 8 ≤ b.toNat →
    exec (.cmp a b) s = .next (s.trap (.outOfBounds .registerIndex) b.toNat)) ∧
  FetchStageFaults .cmp

/-- Rule R115: after a CMP that completes, `fl` holds exactly one of the three patterns: bit 0 set for EQUAL, bit 1
for GREATER_THAN, bit 2 for LESS_THAN, and bits 7..3 are 0. -/
def Obligations.CmpSetsExactlyOneFlagBit : Prop :=
  ∀ (s t : State) (a b : Byte) (ra rb : Fin 8), a.toNat = ra.val → b.toNat = rb.val →
    exec (.cmp a b) s = .next t →
    (t.fl = 0x01 ∨ t.fl = 0x02 ∨ t.fl = 0x04) ∧
    (t.fl.getLsbD 0 = true ↔ (s.reg ra).toNat = (s.reg rb).toNat) ∧
    (t.fl.getLsbD 1 = true ↔ (s.reg rb).toNat < (s.reg ra).toNat) ∧
    (t.fl.getLsbD 2 = true ↔ (s.reg ra).toNat < (s.reg rb).toNat) ∧
    (∀ k, 3 ≤ k → t.fl.getLsbD k = false)

/-- Rule R130, PUSH: SP goes down by one, then register `n`, read after that, is written at the new SP; every other
byte, register and field is as before. SP = 0 raises `StackOverflow`. -/
def Obligations.PushStoresARegister : Prop :=
  (∀ (t : Opcodes) (n : Byte), encode t (.push n) = [t.push, n]) ∧
  (∀ (s : State) (n : Byte) (r : Fin 8), n.toNat = r.val → s.sp ≠ 0 →
    ∃ u : State, exec (.push n) s = .next u ∧ u.pc = s.pc + 2 ∧ u.sp.toNat + 1 = s.sp.toNat ∧
      u.mem.read (s.sp.toNat - 1) = (if r = 7 then s.sp - 1 else s.reg r) ∧
      (∀ a, a ≠ s.sp.toNat - 1 → u.mem.read a = s.mem.read a) ∧
      (∀ q : Fin 8, q ≠ 7 → u.reg q = s.reg q) ∧
      u.fl = s.fl ∧ u.out = s.out ∧ u.run = s.run ∧ u.cfg = s.cfg) ∧
  (∀ (s : State) (n : Byte), 8 ≤ n.toNat →
    exec (.push n) s = .next (s.trap (.outOfBounds .registerIndex) n.toNat)) ∧
  (∀ (s : State) (n : Byte), n.toNat < 8 → s.sp = 0 →
    exec (.push n) s = .next (s.trap (.outOfBounds .stackOverflow) 0)) ∧
  FetchStageFaults .push

/-- Rule R131, POP: register `n` takes the byte at SP, then SP goes up by one; POP R7 leaves SP at the popped byte
plus one. An SP that would be 256 raises `StackUnderflow` with nothing written. -/
def Obligations.PopLoadsARegister : Prop :=
  (∀ (t : Opcodes) (n : Byte), encode t (.pop n) = [t.pop, n]) ∧
  (∀ (s : State) (n : Byte) (r : Fin 8), n.toNat = r.val → r ≠ 7 → s.sp.toNat < 255 →
    exec (.pop n) s = .next { s with
      x := (s.x.set r (s.mem.read s.sp.toNat)).set 7 (s.sp + 1), pc := s.pc + 2 }) ∧
  (∀ (s : State) (n : Byte), n.toNat = 7 → (s.mem.read s.sp.toNat).toNat < 255 →
    exec (.pop n) s = .next { s with
      x := s.x.set 7 (s.mem.read s.sp.toNat + 1), pc := s.pc + 2 }) ∧
  (∀ (s : State) (n : Byte), 8 ≤ n.toNat →
    exec (.pop n) s = .next (s.trap (.outOfBounds .registerIndex) n.toNat)) ∧
  (∀ (s : State) (n : Byte), n.toNat < 7 → s.sp.toNat = 255 →
    exec (.pop n) s = .next (s.trap (.outOfBounds .stackUnderflow) 256)) ∧
  (∀ (s : State) (n : Byte), n.toNat = 7 → (s.mem.read s.sp.toNat).toNat = 255 →
    exec (.pop n) s = .next (s.trap (.outOfBounds .stackUnderflow) 256)) ∧
  FetchStageFaults .pop

/-- Rule R132, CALL: SP goes down by one, the return address `pc + 2` is written at the new SP, and `pc` becomes
register `n`, read after the decrement. Its faults come in the order RegisterIndex, StackOverflow, ReturnAddress. -/
def Obligations.CallPushesTheReturnAddress : Prop :=
  (∀ (t : Opcodes) (n : Byte), encode t (.call n) = [t.call, n]) ∧
  (∀ (s : State) (n : Byte) (r : Fin 8), n.toNat = r.val → s.sp ≠ 0 → s.pc + 2 ≤ 255 →
    ∃ u : State, exec (.call n) s = .next u ∧
      u.pc = (if r = 7 then s.sp - 1 else s.reg r).toNat ∧ u.sp.toNat + 1 = s.sp.toNat ∧
      (u.mem.read (s.sp.toNat - 1)).toNat = s.pc + 2 ∧
      (∀ a, a ≠ s.sp.toNat - 1 → u.mem.read a = s.mem.read a) ∧
      (∀ q : Fin 8, q ≠ 7 → u.reg q = s.reg q) ∧
      u.fl = s.fl ∧ u.out = s.out ∧ u.run = s.run ∧ u.cfg = s.cfg) ∧
  (∀ (s : State) (n : Byte), 8 ≤ n.toNat →
    exec (.call n) s = .next (s.trap (.outOfBounds .registerIndex) n.toNat)) ∧
  (∀ (s : State) (n : Byte), n.toNat < 8 → s.sp = 0 →
    exec (.call n) s = .next (s.trap (.outOfBounds .stackOverflow) 0)) ∧
  (∀ (s : State) (n : Byte), n.toNat < 8 → s.sp ≠ 0 → 255 < s.pc + 2 →
    exec (.call n) s = .next (s.trap (.outOfBounds .returnAddress) (s.pc + 2))) ∧
  FetchStageFaults .call

/-- Rule R133, RET: `pc` becomes the byte at SP, then SP goes up by one; SP = 0xFF raises `StackUnderflow`. -/
def Obligations.RetPopsThePc : Prop :=
  (∀ t : Opcodes, encode t .ret = [t.ret]) ∧
  (∀ s : State, s.sp.toNat < 255 →
    exec .ret s = .next { s with x := s.x.set 7 (s.sp + 1), pc := (s.mem.read s.sp.toNat).toNat }) ∧
  (∀ s : State, s.sp.toNat = 255 → exec .ret s = .next (s.trap (.outOfBounds .stackUnderflow) 256)) ∧
  FetchStageFaults .ret

/-- Rule R150, JMP: `pc` becomes register `n`. -/
def Obligations.JmpJumps : Prop :=
  (∀ (t : Opcodes) (n : Byte), encode t (.jmp n) = [t.jmp, n]) ∧
  (∀ (s : State) (n : Byte) (r : Fin 8), n.toNat = r.val →
    exec (.jmp n) s = .next { s with pc := (s.reg r).toNat }) ∧
  (∀ (s : State) (n : Byte), 8 ≤ n.toNat →
    exec (.jmp n) s = .next (s.trap (.outOfBounds .registerIndex) n.toNat)) ∧
  FetchStageFaults .jmp

/-- Rule R151, JEQ: taken when `fl[0]` = 1, else `pc + 2`; the operand is checked whether or not it is taken. -/
def Obligations.JeqJumpsWhenEqual : Prop :=
  (∀ (t : Opcodes) (n : Byte), encode t (.jeq n) = [t.jeq, n]) ∧
  (∀ (s : State) (n : Byte) (r : Fin 8), n.toNat = r.val →
    exec (.jeq n) s = .next { s with pc := if s.fl.getLsbD 0 = true then (s.reg r).toNat else s.pc + 2 }) ∧
  (∀ (s : State) (n : Byte), 8 ≤ n.toNat →
    exec (.jeq n) s = .next (s.trap (.outOfBounds .registerIndex) n.toNat)) ∧
  FetchStageFaults .jeq

/-- Rule R152, JNE: taken when `fl[0]` = 0, else `pc + 2`; for every `fl` exactly one of JEQ and JNE is taken. -/
def Obligations.JneJumpsWhenNotEqual : Prop :=
  (∀ (t : Opcodes) (n : Byte), encode t (.jne n) = [t.jne, n]) ∧
  (∀ (s : State) (n : Byte) (r : Fin 8), n.toNat = r.val →
    exec (.jne n) s = .next { s with pc := if s.fl.getLsbD 0 = false then (s.reg r).toNat else s.pc + 2 }) ∧
  (∀ (s : State) (n : Byte), 8 ≤ n.toNat →
    exec (.jne n) s = .next (s.trap (.outOfBounds .registerIndex) n.toNat)) ∧
  (∀ (s t u : State) (n : Byte) (r : Fin 8), n.toNat = r.val →
    exec (.jeq n) s = .next t → exec (.jne n) s = .next u →
    (t.pc = (s.reg r).toNat ∧ u.pc = s.pc + 2) ∨ (t.pc = s.pc + 2 ∧ u.pc = (s.reg r).toNat)) ∧
  FetchStageFaults .jne

/-! ## The ALU (42_alu.md) -/

/-- Rule R111: the ALU's results, all unsigned and modulo 256, for its four tags, and MUL's exact product. -/
def Obligations.AluResults : Prop :=
  ∀ va vb : Byte,
    alu .add va vb = .ok { result := some (BitVec.ofNat 8 ((va.toNat + vb.toNat) % 256)) } ∧
    (∃ d : Byte, alu .sub va vb = .ok { result := some d } ∧
      (d.toNat : Int) = ((va.toNat : Int) - vb.toNat) % 256) ∧
    alu .mul va vb = .ok {
      result := some (BitVec.ofNat 8 (va.toNat * vb.toNat % 256)), product := some (va.toNat * vb.toNat) } ∧
    va.toNat * vb.toNat ≤ 65025 ∧
    alu .cmp va vb = .ok {
      flags := some (if va = vb then 0x01 else if vb.toNat < va.toNat then 0x02 else 0x04) }

/-- Any other tag is unsupported, and an instruction that passed one would raise `UnsupportedALUOperation`, after its
operand checks and with nothing written (section 1). The number of such a tag is the model's choice, log entry 9. -/
def Obligations.OtherAluTagsAreUnsupported : Prop :=
  (∀ (va vb : Byte) (k : Nat), alu (.other k) va vb = .error k) ∧
  (∀ (s : State) (a b : Byte) (k : Nat), a.toNat < 8 → b.toNat < 8 →
    aluInstr (.other k) a b s = .next (s.trap .unsupportedAluOperation k))

/-- 42_alu.md section 1 (R117): no step raises `UnsupportedALUOperation`, and 0xA1, the LS-8 SUB byte, decodes to nothing
under the default table. -/
def Obligations.UnsupportedAluOperationNeverRaised : Prop :=
  (∀ (s t : State) (r : FaultRecord), step s = .next t → t.run = .faulted r →
    r.kind ≠ .unsupportedAluOperation) ∧
  decodeOpcode Opcodes.ls8 0xA1 = none

/-! ## Frames: what an instruction leaves unchanged -/

/-- HLT, PRN, CMP, JMP, JEQ, JNE write no register and no byte of memory; of these only CMP writes `fl` and only PRN
writes `out`; the configuration never changes. -/
def Obligations.NoRegisterWriteFrame : Prop :=
  ∀ (i : Instr) (s t : State),
    (i = .hlt ∨ (∃ n, i = .prn n ∨ i = .jmp n ∨ i = .jeq n ∨ i = .jne n) ∨ ∃ a b, i = .cmp a b) →
    exec i s = .next t →
    (∀ q, t.reg q = s.reg q) ∧ (∀ a, t.mem.read a = s.mem.read a) ∧ t.mem = s.mem ∧ t.cfg = s.cfg ∧
    ((∀ a b, i ≠ .cmp a b) → t.fl = s.fl) ∧ ((∀ n, i ≠ .prn n) → t.out = s.out) ∧
    (i ≠ .hlt → t.run = s.run ∨ ∃ r, t.run = .faulted r)

/-- LDI, ADD and MUL change no register but their operand 1, no flag and no byte of memory; LDI and ADD emit
nothing. -/
def Obligations.RegisterWriteFrame : Prop :=
  ∀ (i : Instr) (d : Byte) (s t : State),
    ((∃ imm, i = .ldi d imm) ∨ ∃ b, i = .add d b ∨ i = .mul d b) →
    exec i s = .next t →
    (∀ q : Fin 8, d.toNat ≠ q.val → t.reg q = s.reg q) ∧ (∀ a, t.mem.read a = s.mem.read a) ∧ t.mem = s.mem ∧
    t.fl = s.fl ∧ t.cfg = s.cfg ∧ ((∀ b, i ≠ .mul d b) → t.out = s.out) ∧
    (t.run = s.run ∨ ∃ r, t.run = .faulted r)

/-- PUSH and CALL change no register but SP, no flag, no output, and no byte of memory but the one at the decremented
SP (computed as the meanings compute it). -/
def Obligations.StackStoreFrame : Prop :=
  ∀ (i : Instr) (s t : State), (∃ n, i = .push n ∨ i = .call n) → exec i s = .next t →
    (∀ q : Fin 8, q ≠ 7 → t.reg q = s.reg q) ∧
    (∀ slot : Nat, s.decSp.sp.toNat = slot → ∀ a, a ≠ slot → t.mem.read a = s.mem.read a) ∧
    t.fl = s.fl ∧ t.out = s.out ∧ t.cfg = s.cfg ∧ (t.run = s.run ∨ ∃ r, t.run = .faulted r)

/-- POP and RET change no register but SP and POP's operand, no flag, no output and no byte of memory. -/
def Obligations.StackLoadFrame : Prop :=
  ∀ (i : Instr) (s t : State), ((∃ n, i = .pop n) ∨ i = .ret) → exec i s = .next t →
    (∀ q : Fin 8, q ≠ 7 → (∀ n, i = .pop n → n.toNat ≠ q.val) → t.reg q = s.reg q) ∧
    (∀ a, t.mem.read a = s.mem.read a) ∧ t.mem = s.mem ∧
    t.fl = s.fl ∧ t.out = s.out ∧ t.cfg = s.cfg ∧ (t.run = s.run ∨ ∃ r, t.run = .faulted r)

/-! ## The step and the run (40_execute_loop.md) -/

/-- Rules R80 to R83, R85 (section 1): where the bytes at `pc` decode to an instruction, and no pre-fetch byte faults,
the step is `exec` of that instruction on the state the step started from; the step adds nothing around it. -/
def Obligations.StepRunsTheDecodedInstruction : Prop :=
  ∀ (s : State) (op : Byte) (i : Instr), s.ready → s.prefetchOk → s.memByte? s.pc = some op →
    decode s.cfg.opcodes op (s.memByte? (s.pc + 1)) (s.memByte? (s.pc + 2)) = .ok i →
    step s = exec i s

/-- 30_encoding.md section 1 and 40_execute_loop.md section 1 together: an instruction whose encoding stands at `pc` within memory is the
one the step runs. -/
def Obligations.StepRunsTheEncodedInstruction : Prop :=
  ∀ (s : State) (i : Instr), s.ready → s.prefetchOk →
    (∀ k (h : k < (encode s.cfg.opcodes i).length),
      s.memByte? (s.pc + k) = some ((encode s.cfg.opcodes i)[k]'h)) →
    step s = exec i s

/-- Rule R164: one instruction reports one fault, the first that applies, in the rule's order: opcode fetch,
pre-fetch, InvalidOpcode, consumed operand bytes, register indices (1 then 2), stack bound, return address. -/
def Obligations.FaultsAreReportedInOrder : Prop :=
  (∀ s : State, s.ready → s.pc = 256 → step s = .next (s.trap (.outOfBounds .fetch) 256)) ∧
  (∀ s : State, s.ready → s.cfg.prefetchOobFaults = true → s.pc = 255 →
    step s = .next (s.trap (.outOfBounds .fetch) (s.pc + 1))) ∧
  (∀ s : State, s.ready → s.cfg.prefetchOobFaults = true → s.pc = 254 →
    step s = .next (s.trap (.outOfBounds .fetch) (s.pc + 2))) ∧
  (∀ (s : State) (op : Byte), s.ready → s.prefetchOk → s.memByte? s.pc = some op →
    (∀ m, op ≠ s.cfg.opcodes.byte m) → step s = .next (s.trap .invalidOpcode op.toNat)) ∧
  (∀ (s : State) (m : Mnemonic), s.ready → s.prefetchOk → s.memByte? s.pc = some (s.cfg.opcodes.byte m) →
    1 ≤ m.operandCount → s.pc = 255 → step s = .next (s.trap (.outOfBounds .fetch) (s.pc + 1))) ∧
  (∀ (s : State) (m : Mnemonic), s.ready → s.prefetchOk → s.memByte? s.pc = some (s.cfg.opcodes.byte m) →
    m.operandCount = 2 → s.pc = 254 → step s = .next (s.trap (.outOfBounds .fetch) (s.pc + 2))) ∧
  (∀ (s : State) (i : Instr) (n : Byte), (registerOperands i)[0]? = some n → 8 ≤ n.toNat →
    exec i s = .next (s.trap (.outOfBounds .registerIndex) n.toNat)) ∧
  (∀ (s : State) (i : Instr) (m n : Byte), registerOperands i = [m, n] → m.toNat < 8 → 8 ≤ n.toNat →
    exec i s = .next (s.trap (.outOfBounds .registerIndex) n.toNat)) ∧
  (∀ (s : State) (n : Byte), n.toNat < 8 → s.sp = 0 →
    exec (.push n) s = .next (s.trap (.outOfBounds .stackOverflow) 0) ∧
    exec (.call n) s = .next (s.trap (.outOfBounds .stackOverflow) 0)) ∧
  (∀ (s : State) (n : Byte), n.toNat < 7 → s.sp = 255 →
    exec (.pop n) s = .next (s.trap (.outOfBounds .stackUnderflow) 256) ∧
    exec .ret s = .next (s.trap (.outOfBounds .stackUnderflow) 256)) ∧
  (∀ s : State, s.mem.read s.sp.toNat = 255 →
    exec (.pop 7) s = .next (s.trap (.outOfBounds .stackUnderflow) 256)) ∧
  (∀ (s : State) (n : Byte), n.toNat < 8 → s.sp ≠ 0 → s.pc = 254 →
    exec (.call n) s = .next (s.trap (.outOfBounds .returnAddress) 256))

/-- Rule R84: every instruction that completes selects exactly one next-PC source: SEQ, REG, STACK or HOLD. (CALL's
register is read after its decrement of SP, rule R132.) -/
def Obligations.PcMultiplexerSources : Prop :=
  ∀ (s t : State) (i : Instr), fetch s = .ok i → step s = .next t → t.run.isFaulted = false →
    match i with
    | .hlt => t.pc = s.pc
    | .ldi _ _ | .mul _ _ | .add _ _ | .cmp _ _ => t.pc = s.pc + 3
    | .prn _ | .push _ | .pop _ => t.pc = s.pc + 2
    | .jmp n => ∃ r : Fin 8, n.toNat = r.val ∧ t.pc = (s.reg r).toNat
    | .call n => ∃ r : Fin 8, n.toNat = r.val ∧ t.pc = (t.reg r).toNat
    | .jeq n => ∃ r : Fin 8, n.toNat = r.val ∧
        t.pc = if s.fl.getLsbD 0 = true then (s.reg r).toNat else s.pc + 2
    | .jne n => ∃ r : Fin 8, n.toNat = r.val ∧
        t.pc = if s.fl.getLsbD 0 = false then (s.reg r).toNat else s.pc + 2
    | .ret => t.pc = (s.mem.read s.sp.toNat).toNat

/-- 40_execute_loop.md section 1 (R26, R80, R163): a Running block with an admissible table always has a next state; a Halted or Faulted block
has no step and stays as it is however long it is run. (That `step` answers an outcome `fault` there is the model's
reading of "there is no step", log entry 5.) -/
def Obligations.OnlyRunningBlocksStep : Prop :=
  (∀ s : State, s.ready → ∃ t, step s = .next t) ∧
  (∀ s : State, s.run = .halted → step s = .fault .blockHalted ∧ ∀ k, s.runFor k = s) ∧
  (∀ (s : State) (r : FaultRecord), s.run = .faulted r →
    step s = .fault (.blockFaulted r) ∧ ∀ k, s.runFor k = s)

/-- 40_execute_loop.md section 4 (R26, R86): a step that ends Halted ran HLT, and changed nothing else. -/
def Obligations.OnlyHltHalts : Prop :=
  ∀ s t : State, step s = .next t → t.run = .halted →
    fetch s = .ok .hlt ∧ t = { s with run := .halted }

/-! ## Faults (60_exceptions.md) -/

/-- Rule R162: a step that raises a fault writes `run <- Faulted(record)` and nothing else, and the record's
`pc` is the address of the faulting instruction. -/
def Obligations.FaultsWriteOnlyTheRunState : Prop :=
  ∀ (s t : State) (r : FaultRecord), step s = .next t → t.run = .faulted r →
    t = { s with run := .faulted r } ∧ r.pc = s.pc

/-- Rule R160: the faults, their info, the instructions that raise them and the cause, and their numeric codes. -/
def Obligations.FaultCausesAndCodes : Prop :=
  (∀ (s t : State) (r : FaultRecord), s.wf = true → step s = .next t → t.run = .faulted r →
    match r.kind with
    | .invalidOpcode => ∃ op, s.memByte? s.pc = some op ∧ (∀ m, op ≠ s.cfg.opcodes.byte m) ∧ r.info = op.toNat
    | .unsupportedAluOperation => False
    | .outOfBounds .fetch => r.info = 256 ∧
        (s.pc = 256 ∨ (s.cfg.prefetchOobFaults = true ∧ 253 < s.pc) ∨
          ∃ m, s.memByte? s.pc = some (s.cfg.opcodes.byte m) ∧ 256 < s.pc + 1 + m.operandCount)
    | .outOfBounds .registerIndex =>
        ∃ i, fetch s = .ok i ∧ ∃ n ∈ registerOperands i, 8 ≤ n.toNat ∧ r.info = n.toNat
    | .outOfBounds .stackOverflow => r.info = 0 ∧ s.sp = 0 ∧
        ∃ n, fetch s = .ok (.push n) ∨ fetch s = .ok (.call n)
    | .outOfBounds .stackUnderflow => r.info = 256 ∧
        ((fetch s = .ok .ret ∧ s.sp.toNat = 255) ∨
          (∃ n, fetch s = .ok (.pop n) ∧ n.toNat ≠ 7 ∧ s.sp.toNat = 255) ∨
          (∃ n, fetch s = .ok (.pop n) ∧ n.toNat = 7 ∧ (s.mem.read s.sp.toNat).toNat = 255))
    | .outOfBounds .returnAddress => r.info = 256 ∧ s.pc = 254 ∧ ∃ n, fetch s = .ok (.call n)) ∧
  FaultKind.code .invalidOpcode = (1, none) ∧ FaultKind.code .unsupportedAluOperation = (2, none) ∧
  FaultKind.code (.outOfBounds .fetch) = (3, some 0) ∧
  FaultKind.code (.outOfBounds .registerIndex) = (3, some 1) ∧
  FaultKind.code (.outOfBounds .stackOverflow) = (3, some 2) ∧
  FaultKind.code (.outOfBounds .stackUnderflow) = (3, some 3) ∧
  FaultKind.code (.outOfBounds .returnAddress) = (3, some 4)

/-- Rule R174: Halted means success and Faulted, whatever the code, means error; the status port shows the run
state, with the record when Faulted, and no outcome while the block runs. -/
def Obligations.StatusPortOutcome : Prop :=
  (∀ s : State, s.statusPort.run = s.run) ∧
  (∀ s : State, s.run = .halted → s.statusPort.result = some .success) ∧
  (∀ (s : State) (r : FaultRecord), s.run = .faulted r → s.statusPort.result = some .error) ∧
  (∀ s : State, s.run = .running → s.statusPort.result = none)

/-- Rule R11: the trace port shows `pc`, the three bytes from it, absent from address 256 on, and the 8 registers. -/
def Obligations.TracePortView : Prop :=
  ∀ s : State, s.tracePort.pc = s.pc ∧ (∀ r : Fin 8, s.tracePort.regs[r] = s.reg r) ∧
    s.tracePort.byte0 = (if s.pc < 256 then some (s.mem.read s.pc) else none) ∧
    s.tracePort.byte1 = (if s.pc + 1 < 256 then some (s.mem.read (s.pc + 1)) else none) ∧
    s.tracePort.byte2 = (if s.pc + 2 < 256 then some (s.mem.read (s.pc + 2)) else none)

/-! ## Invariants and reset (10_state.md, 70_reset_and_hazards.md) -/

/-- Every step keeps the invariant of the state: `pc` in 0..256 (R23), memory canonical and within 0..255 (R29),
emitted values in 0..65025 (R27), the run state sound (R161, R162). -/
def Obligations.StepKeepsTheInvariant : Prop :=
  ∀ s t : State, s.wf = true → step s = .next t → t.wf = true

/-- The state after reset meets the invariant. -/
def Obligations.ResetMeetsTheInvariant : Prop := State.reset.wf = true

/-- Every state a launch gives meets the invariant and is ready to step, and so does every state of a run from it. -/
def Obligations.LaunchedRunsKeepTheInvariant : Prop :=
  ∀ (c : Config) (l : LaunchArgs) (s : State), launch c l = .ok s →
    s.wf = true ∧ s.ready ∧ ∀ k, (s.runFor k).wf = true

/-- Rule R32: what a launch leaves in every piece of state, for every `INIT_REGS`, `INIT_FL` and image. -/
def Obligations.LaunchGivesTheResetState : Prop :=
  ∀ (c : Config) (l : LaunchArgs), c.opcodes.admissible = true → l.image.length ≤ 256 →
    ∃ s, launch c l = .ok s ∧ (∀ (k : Nat) (h : k < 7), s.reg ⟨k, by omega⟩ = l.initRegs[k]) ∧
      s.sp = 0xF4 ∧ s.pc = 0 ∧ s.fl = l.initFl ∧
      (∀ (a : Nat) (h : a < l.image.length), s.mem.read a = l.image[a]) ∧
      (∀ a, l.image.length ≤ a → s.mem.read a = 0) ∧
      s.out = [] ∧ s.run = .running ∧ s.cfg = c

/-- 70_reset_and_hazards.md section 2: an image longer than 256 bytes is refused and the block is not started. -/
def Obligations.LongImagesAreRefused : Prop :=
  ∀ (c : Config) (l : LaunchArgs), c.opcodes.admissible = true → 256 < l.image.length →
    launch c l = .error .imageTooLong

/-- `State.reset` is the launch with the default configuration, the empty image, and 0 for the values the spec leaves
unspecified: that 0 is the model's choice (log entry 3). -/
def Obligations.ResetIsTheEmptyLaunch : Prop :=
  launch Config.default { initRegs := Vector.replicate 7 0, initFl := 0, image := [] } = .ok State.reset

/-- Rule R185 (an inference the spec marks as its own): the empty image faults on its first step with
`InvalidOpcode(0x00)` at `pc` = 0, for every launch argument, under the default table. -/
def Obligations.EmptyImageFaultsAtOnce : Prop :=
  ∀ (c : Config) (l : LaunchArgs) (s : State), c.opcodes = Opcodes.ls8 → l.image = [] → launch c l = .ok s →
    step s = .next (s.trap .invalidOpcode 0)

/-! ## Whole-machine rules -/

/-- 20_memory.md section 1 (R45): during a run only PUSH and CALL write memory, and only the byte at SP - 1. -/
def Obligations.OnlyPushAndCallWriteMemory : Prop :=
  ∀ (s t : State) (a : Nat), step s = .next t → t.mem.read a ≠ s.mem.read a →
    (∃ n, fetch s = .ok (.push n) ∨ fetch s = .ok (.call n)) ∧ a + 1 = s.sp.toNat

/-- Rule R25: only CMP writes `fl`, and only JEQ and JNE read it: every other instruction gives the same result
whatever `fl` holds, and CMP's result does not depend on it. -/
def Obligations.FlagsWrittenByCmpReadByJumps : Prop :=
  (∀ s t : State, step s = .next t → t.fl ≠ s.fl → ∃ a b, fetch s = .ok (.cmp a b)) ∧
  (∀ (i : Instr) (s t : State) (f : Byte), (∀ n, i ≠ .jeq n) → (∀ n, i ≠ .jne n) → (∀ a b, i ≠ .cmp a b) →
    exec i s = .next t → exec i { s with fl := f } = .next { t with fl := f }) ∧
  (∀ (s : State) (a b f : Byte), a.toNat < 8 → b.toNat < 8 →
    exec (.cmp a b) { s with fl := f } = exec (.cmp a b) s)

/-- 42_alu.md section 2 (R116): JEQ and JNE read bit 0 of `fl` alone: states whose `fl` agree on it give next states that agree in
everything but `fl`, which is kept. -/
def Obligations.JumpsTestBitZeroAlone : Prop :=
  ∀ (i : Instr) (s t : State) (f : Byte), (∃ n, i = .jeq n ∨ i = .jne n) → f.getLsbD 0 = s.fl.getLsbD 0 →
    exec i s = .next t → exec i { s with fl := f } = .next { t with fl := f }

/-- Rule R27: a step appends at most one value to `out`: PRN a register's value, MUL its exact product when
`MUL_EMITS_OUTPUT`; nothing else changes it, nothing reads it, and it is empty at reset. -/
def Obligations.OutputIsAppendedAndNeverRead : Prop :=
  (∀ s t : State, step s = .next t → ∃ l : List Nat, t.out = s.out ++ l ∧
    (l ≠ [] → (∃ (n : Byte) (r : Fin 8), fetch s = .ok (.prn n) ∧ n.toNat = r.val ∧ l = [(s.reg r).toNat]) ∨
      (∃ (a b : Byte) (ra rb : Fin 8), fetch s = .ok (.mul a b) ∧ s.cfg.mulEmitsOutput = true ∧
        a.toNat = ra.val ∧ b.toNat = rb.val ∧ l = [(s.reg ra).toNat * (s.reg rb).toNat])) ∧
    ∀ o : List Nat, step { s with out := o } = .next { t with out := o ++ l }) ∧
  (∀ (c : Config) (l : LaunchArgs), (State.resetWith c l).out = [])

/-- 43_stack.md section 1 (R134): a push moves SP down by one and a pop up by one, and neither wraps: a push with SP = 0 and a pop whose
new SP would be 256 fault with nothing written. -/
def Obligations.StackNeverWraps : Prop :=
  (∀ (i : Instr) (s t : State), (∃ n, i = .push n ∨ i = .call n) → exec i s = .next t → s.run = .running →
    (t.run = .running ∧ t.sp.toNat + 1 = s.sp.toNat) ∨
      (t = { s with run := t.run } ∧ t.run.isFaulted = true)) ∧
  (∀ (i : Instr) (s t : State), (i = .ret ∨ ∃ n, i = .pop n ∧ n.toNat ≠ 7) → exec i s = .next t → s.run = .running →
    (t.run = .running ∧ t.sp.toNat = s.sp.toNat + 1) ∨
      (t = { s with run := t.run } ∧ t.run.isFaulted = true)) ∧
  (∀ (s : State) (n : Byte), n.toNat < 8 → s.sp = 0 →
    exec (.push n) s = .next (s.trap (.outOfBounds .stackOverflow) 0)) ∧
  (∀ (s : State) (n : Byte), n.toNat < 7 → s.sp = 255 →
    exec (.pop n) s = .next (s.trap (.outOfBounds .stackUnderflow) 256))

/-- Rule R135 (an inference the spec marks as its own): PUSH then POP into the same register, with SP and the pushed
byte left alone between, gives back the register and SP; R7 included. -/
def Obligations.PushThenPopIsARoundTrip : Prop :=
  ∀ (s t u : State) (n : Byte) (r : Fin 8), n.toNat = r.val → s.sp ≠ 0 → exec (.push n) s = .next t →
    u.sp = t.sp → u.mem.read t.sp.toNat = t.mem.read t.sp.toNat →
    ∃ v, exec (.pop n) u = .next v ∧ v.reg r = s.reg r ∧ v.sp = s.sp

/-- Rule R135 (an inference the spec marks as its own): CALL then RET, with SP and the return address left alone
between, returns to `pc + 2` with SP as before the CALL. -/
def Obligations.CallThenRetIsARoundTrip : Prop :=
  ∀ (s t u : State) (n : Byte), n.toNat < 8 → s.sp ≠ 0 → s.pc + 2 ≤ 255 → exec (.call n) s = .next t →
    u.sp = t.sp → u.mem.read t.sp.toNat = t.mem.read t.sp.toNat →
    ∃ v, exec .ret u = .next v ∧ v.pc = s.pc + 2 ∧ v.sp = s.sp

/-- 20_memory.md section 3 (R50): the byte a PUSH writes is the byte the next fetch at that address reads: a pushed HLT opcode
halts the block there, and a pushed byte that is no opcode faults there. -/
def Obligations.PushedBytesAreFetched : Prop :=
  ∀ (s t u : State) (n : Byte) (r : Fin 8), n.toNat = r.val → s.sp ≠ 0 → exec (.push n) s = .next t →
    u.mem = t.mem → u.pc = t.sp.toNat → u.ready → u.prefetchOk →
    u.memByte? u.pc = some (t.reg r) ∧
    (t.reg r = u.cfg.opcodes.hlt → step u = .next { u with run := .halted }) ∧
    ((∀ m, t.reg r ≠ u.cfg.opcodes.byte m) → step u = .next (u.trap .invalidOpcode (t.reg r).toNat))

/-- 20_memory.md sections 1 and 3: a read gives the byte last written at its address, every other byte is left
alone, and a write keeps the canonical form. -/
def Obligations.MemoryReadsLastWrite : Prop :=
  ∀ (s : State) (addr v : Byte),
    (s.memWrite addr v).memRead addr = v ∧
    (∀ a : Byte, a ≠ addr → (s.memWrite addr v).memRead a = s.memRead a) ∧
    (s.mem.wf = true → (s.memWrite addr v).mem.wf = true)

/-- 10_state.md section 5 (R29), as the model holds it: two memories in canonical form with the same 256 bytes are equal. -/
def Obligations.EqualMemoriesAreEqualData : Prop :=
  ∀ m m' : Memory, m.wf = true → m'.wf = true → (∀ a, a < 256 → m.read a = m'.read a) → m = m'

/-- The configuration is fixed (rule R5): no step changes it. (The model carries it in State, log entry 1.) -/
def Obligations.StepsKeepTheConfiguration : Prop :=
  ∀ s t : State, step s = .next t → t.cfg = s.cfg

/-- 40_execute_loop.md section 4, 41_register_io.md, 42_alu.md section 3, 43_stack.md section 2 and 44_jumps.md together:
a register that an instruction neither names nor uses as SP does not influence it and is not changed by it. -/
def Obligations.UnnamedRegistersDoNotMatter : Prop :=
  ∀ (i : Instr) (s t : State) (r : Fin 8) (v : Byte), usesReg i r = false → exec i s = .next t →
    exec i (s.setReg r v) = .next (t.setReg r v)

/-! ## Outside the block -/

/-- The load of log entry 8: an instruction placed as one number is the one the next step runs, under the default
configuration, in every state. -/
def Obligations.PlacedWordIsRun : Prop :=
  ∀ (s : State) (nbits w : Nat) (i : Instr), s.cfg = Config.default → decodeTableWord nbits w = some i →
    step (s.withFetchWord nbits w) = exec i (s.withFetchWord nbits w)

/-- 30_encoding.md section 5 (R69): the assembly line of a well-formed instruction assembles to it. (White space is log entry
13.) -/
def Obligations.AssemblyTextRoundTrip : Prop :=
  ∀ i : Instr, i.wf = true → assembleLine i.text = some i
end

