-- ==== Sys2Proof/Laws/Decode.lean ====
section
/-! SUPPORT. Admissible opcode tables and what the decoder answers. -/

namespace Sys2Proof

theorem Mnemonic.mem_all (m : Mnemonic) : m ∈ Mnemonic.all := by cases m <;> decide

theorem Opcodes.admissible_iff {t : Opcodes} :
    t.admissible = true ↔ t.values.Nodup ∧ ∀ m, topBits (t.byte m) = m.operandCount := by
  simp only [Opcodes.admissible, Bool.and_eq_true, decide_eq_true_eq, List.all_eq_true, beq_iff_eq]
  exact ⟨fun h => ⟨h.1, fun m => h.2 m m.mem_all⟩, fun h => ⟨h.1, fun m _ => h.2 m⟩⟩

/-- Under an admissible table an opcode byte's top bits are its mnemonic's operand count. -/
theorem Opcodes.topBits_byte {t : Opcodes} (h : t.admissible = true) (m : Mnemonic) :
    topBits (t.byte m) = m.operandCount := (Opcodes.admissible_iff.mp h).2 m

/-- Under an admissible table two mnemonics with one byte are the same. -/
theorem Opcodes.byte_injective {t : Opcodes} (h : t.admissible = true) {m m' : Mnemonic}
    (e : t.byte m = t.byte m') : m = m' :=
  List.inj_on_of_nodup_map (Opcodes.admissible_iff.mp h).1 m.mem_all m'.mem_all e

theorem byte_of_decodeOpcode {t : Opcodes} {op : Byte} {m : Mnemonic} (h : decodeOpcode t op = some m) :
    t.byte m = op := by
  have := List.find?_some h
  exact (beq_iff_eq.mp this).symm

theorem decodeOpcode_byte {t : Opcodes} (h : t.admissible = true) (m : Mnemonic) :
    decodeOpcode t (t.byte m) = some m := by
  cases hd : decodeOpcode t (t.byte m) with
  | none => simpa using List.find?_eq_none.mp hd m m.mem_all
  | some m' => rw [Opcodes.byte_injective h (byte_of_decodeOpcode hd)]

@[simp] theorem Mnemonic.mnemonic_withOperands (m : Mnemonic) (b1 b2 : Byte) :
    (m.withOperands b1 b2).mnemonic = m := by cases m <;> rfl

theorem Instr.length_operands (i : Instr) : i.operands.length = i.mnemonic.operandCount := by cases i <;> rfl

theorem decode_of_none {t : Opcodes} {op : Byte} (h : decodeOpcode t op = none) (b1 b2 : Option Byte) :
    decode t op b1 b2 = .error (.invalidOpcode op) := by
  simp [decode, h]

/-- The decoder answers an instruction only when the opcode matches its mnemonic and every operand byte that its
width counts is there. -/
theorem decode_ok {t : Opcodes} {op : Byte} {b1 b2 : Option Byte} {i : Instr}
    (h : decode t op b1 b2 = .ok i) :
    ∃ m, decodeOpcode t op = some m ∧ i = m.withOperands (b1.getD 0) (b2.getD 0) ∧
      (topBits op ≥ 1 → b1.isSome = true) ∧ (topBits op = 2 → b2.isSome = true) := by
  unfold decode at h
  split at h
  · cases h
  · next m hm =>
    refine ⟨m, hm, ?_⟩
    simp only [opcodeWidth, beq_iff_eq, Bool.and_eq_true] at h
    split at h
    · cases h
    · next h1 =>
      split at h
      · cases h
      · next h2 =>
        injection h with h
        refine ⟨h.symm, fun hb => ?_, fun hb => ?_⟩
        · cases b1 <;> simp_all
        · cases b2 <;> simp_all

/-- The width of an instruction is at most 3 bytes. -/
theorem Instr.width_le (i : Instr) : i.width ≤ 3 := by cases i <;> simp [Instr.width, Instr.mnemonic, Mnemonic.operandCount]

end Sys2Proof
end

