-- ==== Sys2Proof/Laws/Memory.lean ====
section
/-! SUPPORT. Memory: reading after an operation, and that every operation keeps the canonical form. -/

namespace Sys2Proof.Machine

theorem Memory.read_erase (m : Memory) (a b : Nat) :
    (m.erase a).read b = if a = b then 0 else m.read b := by
  induction m with
  | nil => simp [Memory.erase, Memory.read]
  | cons c m ih =>
    obtain ⟨k, v⟩ := c
    by_cases hk : k = a <;> by_cases hb : k = b <;> by_cases hab : a = b <;>
      simp_all [Memory.erase, Memory.read]

theorem Memory.read_insert (m : Memory) (a b : Nat) (v : Byte)
    (he : ∀ w, (a, w) ∉ m) : (m.insert a v).read b = if a = b then v else m.read b := by
  induction m with
  | nil => simp [Memory.insert, Memory.read]
  | cons c m ih =>
    obtain ⟨k, w⟩ := c
    have hk : k ≠ a := fun e => he w (by simp [e])
    have ih := ih (fun u hu => he u (List.mem_cons_of_mem _ hu))
    by_cases hlt : a < k
    · simp only [Memory.insert, if_pos hlt, Memory.read]
    · simp only [Memory.insert, if_neg hlt, Memory.read, ih]
      by_cases hb : k = b
      · rw [if_pos hb, if_neg (by omega), if_pos hb]
      · simp only [if_neg hb]

theorem Memory.not_mem_erase (m : Memory) (a : Nat) (w : Byte) : (a, w) ∉ m.erase a := by
  induction m with
  | nil => simp [Memory.erase]
  | cons c m ih =>
    obtain ⟨k, v⟩ := c
    by_cases hk : k = a
    · simp [Memory.erase, hk, ih]
    · simp [Memory.erase, hk, ih, Ne.symm hk]

/-- Reading after a write, of any memory. -/
theorem Memory.read_write (m : Memory) (a b : Nat) (v : Byte) :
    (m.write a v).read b = if a = b then v else m.read b := by
  unfold Memory.write
  split
  · next h => rw [Memory.read_erase, h]
  · rw [Memory.read_insert _ _ _ _ (m.not_mem_erase a), Memory.read_erase]
    split <;> rfl

theorem Memory.wfFrom_mono {lo lo' : Nat} {m : Memory} (h : lo' ≤ lo) (hm : Memory.wfFrom lo m = true) :
    Memory.wfFrom lo' m = true := by
  cases m with
  | nil => rfl
  | cons c m =>
    obtain ⟨k, v⟩ := c
    simp only [Memory.wfFrom, Bool.and_eq_true, decide_eq_true_eq] at hm ⊢
    exact ⟨⟨⟨by omega, hm.1.1.2⟩, hm.1.2⟩, hm.2⟩

theorem Memory.wfFrom_erase {lo : Nat} {m : Memory} (a : Nat) (hm : Memory.wfFrom lo m = true) :
    Memory.wfFrom lo (m.erase a) = true := by
  induction m generalizing lo with
  | nil => rfl
  | cons c m ih =>
    obtain ⟨k, v⟩ := c
    simp only [Memory.wfFrom, Bool.and_eq_true, decide_eq_true_eq] at hm
    by_cases hk : k = a
    · simp only [Memory.erase, hk, if_true]
      exact Memory.wfFrom_mono (by omega) (ih hm.2)
    · simp only [Memory.erase, hk, if_false, Memory.wfFrom, Bool.and_eq_true, decide_eq_true_eq]
      exact ⟨hm.1, ih hm.2⟩

theorem Memory.wfFrom_insert {lo a : Nat} {m : Memory} {v : Byte} (hm : Memory.wfFrom lo m = true)
    (hlo : lo ≤ a) (ha : a < 256) (hv : v ≠ 0) (he : ∀ w, (a, w) ∉ m) :
    Memory.wfFrom lo (m.insert a v) = true := by
  induction m generalizing lo with
  | nil => simpa [Memory.insert, Memory.wfFrom, hlo, ha] using hv
  | cons c m ih =>
    obtain ⟨k, w⟩ := c
    simp only [Memory.wfFrom, Bool.and_eq_true, decide_eq_true_eq] at hm
    have hk : k ≠ a := fun e => he w (by simp [e])
    by_cases hlt : a < k
    · simp only [Memory.insert, hlt, if_true, Memory.wfFrom, Bool.and_eq_true, decide_eq_true_eq]
      exact ⟨⟨⟨hlo, ha⟩, hv⟩, ⟨⟨by omega, hm.1.1.2⟩, hm.1.2⟩, hm.2⟩
    · simp only [Memory.insert, hlt, if_false, Memory.wfFrom, Bool.and_eq_true, decide_eq_true_eq]
      exact ⟨hm.1, ih hm.2 (by omega) (fun u hu => he u (List.mem_cons_of_mem _ hu))⟩

/-- A write within 0..255 keeps the canonical form. -/
theorem Memory.wf_write {m : Memory} {a : Nat} (v : Byte) (hm : m.wf = true) (ha : a < 256) :
    (m.write a v).wf = true := by
  unfold Memory.write Memory.wf
  split
  · exact Memory.wfFrom_erase a hm
  · next h => exact Memory.wfFrom_insert (Memory.wfFrom_erase a hm) (Nat.zero_le _) ha h (m.not_mem_erase a)

/-- The memory port's write keeps the canonical form: its address is a byte. -/
theorem State.memWrite_wf {s : State} (a v : Byte) (hm : s.mem.wf = true) : (s.memWrite a v).mem.wf = true :=
  Memory.wf_write v hm a.isLt

/-- Placing an instruction keeps the canonical form. -/
theorem Memory.wf_place {m : Memory} (a : Nat) (vs : List Byte) (hm : m.wf = true) : (m.place a vs).wf = true := by
  induction vs generalizing m a with
  | nil => exact hm
  | cons v vs ih =>
    unfold Memory.place
    split
    · exact ih _ (Memory.wf_write v hm (by omega))
    · exact hm

theorem Memory.wfFrom_image (a : Nat) (vs : List Byte) (h : a + vs.length ≤ 256) :
    Memory.wfFrom a (Memory.image a vs) = true := by
  induction vs generalizing a with
  | nil => rfl
  | cons v vs ih =>
    have ih := ih (a + 1) (by simp at h; omega)
    unfold Memory.image
    split
    · exact Memory.wfFrom_mono (by omega) ih
    · next hv =>
      simp only [Memory.wfFrom, Bool.and_eq_true, decide_eq_true_eq]
      exact ⟨⟨⟨le_refl _, by simp at h; omega⟩, hv⟩, ih⟩

/-- The memory of an image that fits is canonical. -/
theorem Memory.wf_image {vs : List Byte} (h : vs.length ≤ 256) : (Memory.image 0 vs).wf = true :=
  Memory.wfFrom_image 0 vs (by omega)

theorem Memory.read_of_lt {lo : Nat} {m : Memory} (hm : Memory.wfFrom lo m = true) {a : Nat} (h : a < lo) :
    m.read a = 0 := by
  induction m generalizing lo with
  | nil => rfl
  | cons c m ih =>
    obtain ⟨k, v⟩ := c
    simp only [Memory.wfFrom, Bool.and_eq_true, decide_eq_true_eq] at hm
    simp only [Memory.read]
    rw [if_neg (by omega)]
    exact ih hm.2 (by omega)

theorem Memory.read_image_of_lt (a b : Nat) (vs : List Byte) (h : b < a) : (Memory.image a vs).read b = 0 := by
  induction vs generalizing a with
  | nil => rfl
  | cons v vs ih =>
    unfold Memory.image
    split
    · exact ih _ (by omega)
    · simp only [Memory.read]
      rw [if_neg (by omega)]
      exact ih _ (by omega)

/-- Reading the memory of an image placed from address `a`. -/
theorem Memory.read_image (a k : Nat) (vs : List Byte) :
    (Memory.image a vs).read (a + k) = vs[k]?.getD 0 := by
  induction vs generalizing a k with
  | nil => simp [Memory.image, Memory.read]
  | cons v vs ih =>
    cases k with
    | zero =>
      unfold Memory.image
      split
      · next hv => simp [Memory.read_image_of_lt (a + 1) a vs (by omega), hv]
      · simp [Memory.read]
    | succ k =>
      have ih := ih (a + 1) k
      rw [show a + (k + 1) = a + 1 + k by omega]
      unfold Memory.image
      split
      · simpa using ih
      · simp only [Memory.read]
        rw [if_neg (by omega)]
        simpa using ih

/-- `State.reset`'s memory has the canonical form. -/
theorem State.reset_mem_wf : State.reset.mem.wf = true := rfl

end Sys2Proof.Machine
end

