-- ==== Sys2Proof/Laws/State.lean ====
section
/-! SUPPORT. What each update of the state does to each field, and reading a register after writing one. -/

namespace Sys2Proof.Machine

@[simp] theorem State.setReg_cfg (s : State) (i : Fin 8) (v : Byte) : (s.setReg i v).cfg = s.cfg := rfl
@[simp] theorem State.setReg_x (s : State) (i : Fin 8) (v : Byte) : (s.setReg i v).x = s.x.set i v := rfl
@[simp] theorem State.setReg_pc (s : State) (i : Fin 8) (v : Byte) : (s.setReg i v).pc = s.pc := rfl
@[simp] theorem State.setReg_fl (s : State) (i : Fin 8) (v : Byte) : (s.setReg i v).fl = s.fl := rfl
@[simp] theorem State.setReg_mem (s : State) (i : Fin 8) (v : Byte) : (s.setReg i v).mem = s.mem := rfl
@[simp] theorem State.setReg_out (s : State) (i : Fin 8) (v : Byte) : (s.setReg i v).out = s.out := rfl
@[simp] theorem State.setReg_run (s : State) (i : Fin 8) (v : Byte) : (s.setReg i v).run = s.run := rfl

@[simp] theorem State.setSp_cfg (s : State) (v : Byte) : (s.setSp v).cfg = s.cfg := rfl
@[simp] theorem State.setSp_x (s : State) (v : Byte) : (s.setSp v).x = s.x.set spIndex v := rfl
@[simp] theorem State.setSp_pc (s : State) (v : Byte) : (s.setSp v).pc = s.pc := rfl
@[simp] theorem State.setSp_fl (s : State) (v : Byte) : (s.setSp v).fl = s.fl := rfl
@[simp] theorem State.setSp_mem (s : State) (v : Byte) : (s.setSp v).mem = s.mem := rfl
@[simp] theorem State.setSp_out (s : State) (v : Byte) : (s.setSp v).out = s.out := rfl
@[simp] theorem State.setSp_run (s : State) (v : Byte) : (s.setSp v).run = s.run := rfl

@[simp] theorem State.setFl_cfg (s : State) (v : Byte) : (s.setFl v).cfg = s.cfg := rfl
@[simp] theorem State.setFl_x (s : State) (v : Byte) : (s.setFl v).x = s.x := rfl
@[simp] theorem State.setFl_pc (s : State) (v : Byte) : (s.setFl v).pc = s.pc := rfl
@[simp] theorem State.setFl_fl (s : State) (v : Byte) : (s.setFl v).fl = v := rfl
@[simp] theorem State.setFl_mem (s : State) (v : Byte) : (s.setFl v).mem = s.mem := rfl
@[simp] theorem State.setFl_out (s : State) (v : Byte) : (s.setFl v).out = s.out := rfl
@[simp] theorem State.setFl_run (s : State) (v : Byte) : (s.setFl v).run = s.run := rfl

@[simp] theorem State.memWrite_cfg (s : State) (a v : Byte) : (s.memWrite a v).cfg = s.cfg := rfl
@[simp] theorem State.memWrite_x (s : State) (a v : Byte) : (s.memWrite a v).x = s.x := rfl
@[simp] theorem State.memWrite_pc (s : State) (a v : Byte) : (s.memWrite a v).pc = s.pc := rfl
@[simp] theorem State.memWrite_fl (s : State) (a v : Byte) : (s.memWrite a v).fl = s.fl := rfl
@[simp] theorem State.memWrite_mem (s : State) (a v : Byte) : (s.memWrite a v).mem = s.mem.write a.toNat v := rfl
@[simp] theorem State.memWrite_out (s : State) (a v : Byte) : (s.memWrite a v).out = s.out := rfl
@[simp] theorem State.memWrite_run (s : State) (a v : Byte) : (s.memWrite a v).run = s.run := rfl

@[simp] theorem State.emit_cfg (s : State) (v : Nat) : (s.emit v).cfg = s.cfg := rfl
@[simp] theorem State.emit_x (s : State) (v : Nat) : (s.emit v).x = s.x := rfl
@[simp] theorem State.emit_pc (s : State) (v : Nat) : (s.emit v).pc = s.pc := rfl
@[simp] theorem State.emit_fl (s : State) (v : Nat) : (s.emit v).fl = s.fl := rfl
@[simp] theorem State.emit_mem (s : State) (v : Nat) : (s.emit v).mem = s.mem := rfl
@[simp] theorem State.emit_out (s : State) (v : Nat) : (s.emit v).out = s.out ++ [v] := rfl
@[simp] theorem State.emit_run (s : State) (v : Nat) : (s.emit v).run = s.run := rfl

@[simp] theorem State.selectPc_cfg (s : State) (sel : PcSelect) : (s.selectPc sel).cfg = s.cfg := rfl
@[simp] theorem State.selectPc_x (s : State) (sel : PcSelect) : (s.selectPc sel).x = s.x := rfl
@[simp] theorem State.selectPc_pc (s : State) (sel : PcSelect) : (s.selectPc sel).pc = sel.value s.pc := rfl
@[simp] theorem State.selectPc_fl (s : State) (sel : PcSelect) : (s.selectPc sel).fl = s.fl := rfl
@[simp] theorem State.selectPc_mem (s : State) (sel : PcSelect) : (s.selectPc sel).mem = s.mem := rfl
@[simp] theorem State.selectPc_out (s : State) (sel : PcSelect) : (s.selectPc sel).out = s.out := rfl
@[simp] theorem State.selectPc_run (s : State) (sel : PcSelect) : (s.selectPc sel).run = s.run := rfl

@[simp] theorem State.trap_cfg (s : State) (k : FaultKind) (n : Nat) : (s.trap k n).cfg = s.cfg := rfl
@[simp] theorem State.trap_x (s : State) (k : FaultKind) (n : Nat) : (s.trap k n).x = s.x := rfl
@[simp] theorem State.trap_pc (s : State) (k : FaultKind) (n : Nat) : (s.trap k n).pc = s.pc := rfl
@[simp] theorem State.trap_fl (s : State) (k : FaultKind) (n : Nat) : (s.trap k n).fl = s.fl := rfl
@[simp] theorem State.trap_mem (s : State) (k : FaultKind) (n : Nat) : (s.trap k n).mem = s.mem := rfl
@[simp] theorem State.trap_out (s : State) (k : FaultKind) (n : Nat) : (s.trap k n).out = s.out := rfl
@[simp] theorem State.trap_run (s : State) (k : FaultKind) (n : Nat) : (s.trap k n).run = .faulted { kind := k, info := n, pc := s.pc } := rfl

@[simp] theorem State.decSp_cfg (s : State) : (s.decSp).cfg = s.cfg := rfl
@[simp] theorem State.decSp_x (s : State) : (s.decSp).x = s.x.set spIndex (s.sp - 1) := rfl
@[simp] theorem State.decSp_pc (s : State) : (s.decSp).pc = s.pc := rfl
@[simp] theorem State.decSp_fl (s : State) : (s.decSp).fl = s.fl := rfl
@[simp] theorem State.decSp_mem (s : State) : (s.decSp).mem = s.mem := rfl
@[simp] theorem State.decSp_out (s : State) : (s.decSp).out = s.out := rfl
@[simp] theorem State.decSp_run (s : State) : (s.decSp).run = s.run := rfl

@[simp] theorem State.storeTop_cfg (s : State) (v : Byte) : (s.storeTop v).cfg = s.cfg := rfl
@[simp] theorem State.storeTop_x (s : State) (v : Byte) : (s.storeTop v).x = s.x := rfl
@[simp] theorem State.storeTop_pc (s : State) (v : Byte) : (s.storeTop v).pc = s.pc := rfl
@[simp] theorem State.storeTop_fl (s : State) (v : Byte) : (s.storeTop v).fl = s.fl := rfl
@[simp] theorem State.storeTop_mem (s : State) (v : Byte) : (s.storeTop v).mem = s.mem.write s.sp.toNat v := rfl
@[simp] theorem State.storeTop_out (s : State) (v : Byte) : (s.storeTop v).out = s.out := rfl
@[simp] theorem State.storeTop_run (s : State) (v : Byte) : (s.storeTop v).run = s.run := rfl

@[simp] theorem State.reg_setReg_self (s : State) (i : Fin 8) (v : Byte) : (s.setReg i v).reg i = v := by
  simp [State.reg, State.setReg]

theorem State.reg_setReg_ne (s : State) {i j : Fin 8} (v : Byte) (h : i ≠ j) : (s.setReg i v).reg j = s.reg j := by
  have : (i : Nat) ≠ j := fun e => h (Fin.ext e)
  simp [State.reg, State.setReg, this]

/-- Reading any register after writing one. -/
theorem State.reg_setReg (s : State) (i j : Fin 8) (v : Byte) :
    (s.setReg i v).reg j = if i = j then v else s.reg j := by
  split
  · next h => subst h; simp
  · next h => exact s.reg_setReg_ne v h

/-- Two register files are equal when every register is. -/
theorem State.x_ext {s t : State} (h : ∀ i, t.reg i = s.reg i) : t.x = s.x := by
  apply Vector.ext
  intro i hi
  exact h ⟨i, hi⟩

@[simp] theorem State.sp_setSp (s : State) (v : Byte) : (s.setSp v).sp = v := s.reg_setReg_self spIndex v

@[simp] theorem State.sp_decSp (s : State) : s.decSp.sp = s.sp - 1 := s.sp_setSp _

theorem State.reg_decSp (s : State) (r : Fin 8) : s.decSp.reg r = if r = spIndex then s.sp - 1 else s.reg r := by
  simp only [State.decSp, State.setSp, State.reg_setReg, eq_comm]

@[simp] theorem State.reg_selectPc (s : State) (sel : PcSelect) (r : Fin 8) : (s.selectPc sel).reg r = s.reg r := rfl
@[simp] theorem State.reg_emit (s : State) (v : Nat) (r : Fin 8) : (s.emit v).reg r = s.reg r := rfl
@[simp] theorem State.reg_setFl (s : State) (v : Byte) (r : Fin 8) : (s.setFl v).reg r = s.reg r := rfl
@[simp] theorem State.reg_memWrite (s : State) (a v : Byte) (r : Fin 8) : (s.memWrite a v).reg r = s.reg r := rfl
@[simp] theorem State.reg_storeTop (s : State) (v : Byte) (r : Fin 8) : (s.storeTop v).reg r = s.reg r := rfl
@[simp] theorem State.reg_trap (s : State) (k : FaultKind) (n : Nat) (r : Fin 8) : (s.trap k n).reg r = s.reg r := rfl

/-- A byte of memory is absent exactly above address 255. -/
theorem State.memByte?_eq_none {s : State} {a : Nat} : s.memByte? a = none ↔ 255 < a := by
  simp [State.memByte?]

theorem State.memByte?_eq_some {s : State} {a : Nat} {v : Byte} :
    s.memByte? a = some v ↔ a ≤ 255 ∧ s.mem.read a = v := by
  simp [State.memByte?]

end Sys2Proof.Machine
end

