-- ==== Sys2Proof/Laws/Operands.lean ====
section
/-! SUPPORT. Everything an operand check, the ALU form and the jump form can do. -/

namespace Sys2Proof.Machine

theorem regOperand?_eq_some {n : Byte} {r : Fin 8} : regOperand? n = some r ↔ n.toNat = r.val := by
  unfold regOperand?
  split
  · simp [Fin.ext_iff]
  · next h => simp only [reduceCtorEq, false_iff]; omega

theorem regOperand?_eq_none {n : Byte} : regOperand? n = none ↔ 8 ≤ n.toNat := by
  unfold regOperand?
  split
  · next h => simp only [reduceCtorEq, false_iff]; omega
  · next h => simp only [true_iff]; omega

/-- A register operand in range: the instruction goes on with its register. -/
theorem withReg_reg {n : Byte} {r : Fin 8} (h : n.toNat = r.val) (s : State)
    (k : Fin 8 → Host.Outcome State Fault Refusal) : withReg n s k = k r := by
  simp [withReg, regOperand?_eq_some.mpr h]

/-- A register operand out of range: the fault, and nothing of the instruction. -/
theorem withReg_trap {n : Byte} (h : 8 ≤ n.toNat) (s : State) (k : Fin 8 → Host.Outcome State Fault Refusal) :
    withReg n s k = .next (s.trap (.outOfBounds .registerIndex) n.toNat) := by
  simp [withReg, regOperand?_eq_none.mpr h, raiseFault]

/-- All that a register operand check can do. -/
theorem withReg_next {n : Byte} {s t : State} {k : Fin 8 → Host.Outcome State Fault Refusal}
    (h : withReg n s k = .next t) :
    (∃ r : Fin 8, n.toNat = r.val ∧ k r = .next t) ∨
      (8 ≤ n.toNat ∧ t = s.trap (.outOfBounds .registerIndex) n.toNat) := by
  by_cases hn : n.toNat < 8
  · exact .inl ⟨⟨n.toNat, hn⟩, rfl, (withReg_reg (r := ⟨n.toNat, hn⟩) rfl s k) ▸ h⟩
  · rw [withReg_trap (by omega)] at h
    exact .inr ⟨by omega, by injection h with h; exact h.symm⟩

/-- All that the check of two register operands can do. -/
theorem withRegs_next {a b : Byte} {s t : State} {k : Fin 8 → Fin 8 → Host.Outcome State Fault Refusal}
    (h : withRegs a b s k = .next t) :
    (∃ ra rb : Fin 8, a.toNat = ra.val ∧ b.toNat = rb.val ∧ k ra rb = .next t) ∨
      (8 ≤ a.toNat ∧ t = s.trap (.outOfBounds .registerIndex) a.toNat) ∨
      (a.toNat < 8 ∧ 8 ≤ b.toNat ∧ t = s.trap (.outOfBounds .registerIndex) b.toNat) := by
  obtain ⟨ra, ha, h⟩ | h := withReg_next h
  · obtain ⟨rb, hb, h⟩ | ⟨hb, h⟩ := withReg_next h
    · exact .inl ⟨ra, rb, ha, hb, h⟩
    · exact .inr (.inr ⟨by omega, hb, h⟩)
  · exact .inr (.inl h)

/-- The shared form of MUL, ADD and CMP with operands in range. -/
theorem aluInstr_regs {tag : AluTag} {a b : Byte} {ra rb : Fin 8} {o : AluOut} (ha : a.toNat = ra.val)
    (hb : b.toNat = rb.val) (s : State) (ho : alu tag (s.reg ra) (s.reg rb) = .ok o) :
    aluInstr tag a b s = .next ((s.writeAlu ra o).selectPc (.seq 3)) := by
  unfold aluInstr withRegs
  rw [withReg_reg ha, withReg_reg hb]
  simp only [ho]

/-- All that the shared form of the jumps can do. -/
theorem jumpIf_next {taken : Bool} {n : Byte} {s t : State} (h : jumpIf taken n s = .next t) :
    (∃ r : Fin 8, n.toNat = r.val ∧ t = s.selectPc (if taken then .reg (s.reg r) else .seq 2)) ∨
      (8 ≤ n.toNat ∧ t = s.trap (.outOfBounds .registerIndex) n.toNat) := by
  obtain ⟨r, hr, h⟩ | h := withReg_next h
  · exact .inl ⟨r, hr, by injection h with h; exact h.symm⟩
  · exact .inr h

theorem lowByte_eq (n : Nat) : lowByte n = BitVec.ofNat 8 n := by
  apply BitVec.eq_of_toNat_eq
  simp [lowByte]

/-- The ALU's sum is the byte sum. -/
theorem aluAdd_eq (va vb : Byte) : aluAdd va vb = va + vb := by
  apply BitVec.eq_of_toNat_eq
  simp [aluAdd, lowByte]

/-- The ALU's difference is the byte difference. -/
theorem aluSub_eq (va vb : Byte) : aluSub va vb = va - vb := by
  apply BitVec.eq_of_toNat_eq
  have := va.isLt
  have := vb.isLt
  simp only [aluSub, lowByte, BitVec.toNat_ofNat, BitVec.toNat_sub]
  omega

/-- An exact product is at most 65025. -/
theorem aluProduct_le (va vb : Byte) : aluProduct va vb ≤ 65025 := by
  have ha : va.toNat ≤ 255 := by have := va.isLt; omega
  have hb : vb.toNat ≤ 255 := by have := vb.isLt; omega
  exact Nat.mul_le_mul ha hb

end Sys2Proof.Machine
end

