-- ==== Sys2Proof/Laws/PerInstr.lean ====
section
/-! SUPPORT. Per-instruction laws. Family EncodedLength: an instruction's encoding is as long as its opcode byte's top
bits announce (rule R61), one lemma per constructor. -/

namespace Sys2Proof.Laws.EncodedLength

/-- Under every admissible opcode table the encoding has the length that its first byte announces. -/
def Statement (i : Instr) : Prop :=
  ∀ t : Opcodes, t.admissible = true → (encode t i).length = opcodeWidth (t.byte i.mnemonic)

theorem all_forms (i : Instr) : Statement i := fun t h => by
  simp [encode, opcodeWidth, Opcodes.topBits_byte h, i.length_operands, Nat.add_comm]

theorem hlt : Statement .hlt := all_forms _
theorem ldi (n imm : Byte) : Statement (.ldi n imm) := all_forms _
theorem prn (n : Byte) : Statement (.prn n) := all_forms _
theorem mul (a b : Byte) : Statement (.mul a b) := all_forms _
theorem add (a b : Byte) : Statement (.add a b) := all_forms _
theorem push (n : Byte) : Statement (.push n) := all_forms _
theorem pop (n : Byte) : Statement (.pop n) := all_forms _
theorem call (n : Byte) : Statement (.call n) := all_forms _
theorem ret : Statement .ret := all_forms _
theorem cmp (a b : Byte) : Statement (.cmp a b) := all_forms _
theorem jmp (n : Byte) : Statement (.jmp n) := all_forms _
theorem jeq (n : Byte) : Statement (.jeq n) := all_forms _
theorem jne (n : Byte) : Statement (.jne n) := all_forms _

end Sys2Proof.Laws.EncodedLength
end

