-- ==== Sys2Proof/Laws/Step.lean ====
section
/-! SUPPORT. Everything a fetch, an instruction and a step can do: one inversion lemma for each. -/

namespace Sys2Proof.Machine

/-- A fetched instruction was decoded from the bytes at `pc`. -/
theorem fetch_ok {s : State} {i : Instr} (h : fetch s = .ok i) :
    s.pc ≤ 255 ∧ decode s.cfg.opcodes (s.mem.read s.pc) (s.memByte? (s.pc + 1)) (s.memByte? (s.pc + 2)) = .ok i ∧
      (s.cfg.prefetchOobFaults = true → s.pc ≤ 253) := by
  unfold fetch at h
  split at h
  · cases h
  · next op hop =>
    obtain ⟨hpc, rfl⟩ := State.memByte?_eq_some.mp hop
    simp only [Bool.and_eq_true, Option.isNone_iff_eq_none, State.memByte?_eq_none] at h
    split at h
    · cases h
    · next h1 =>
      split at h
      · cases h
      · next h2 =>
        split at h
        · next j hj =>
          injection h with h
          subst h
          exact ⟨hpc, hj, fun hp => by by_contra hc; exact h2 ⟨hp, by omega⟩⟩
        · cases h

/-- A fetched instruction lies within memory, under an admissible table. -/
theorem fetch_width {s : State} {i : Instr} (ha : s.cfg.opcodes.admissible = true) (h : fetch s = .ok i) :
    s.pc + i.width ≤ 256 := by
  obtain ⟨hpc, hd, -⟩ := fetch_ok h
  obtain ⟨m, hm, rfl, h1, h2⟩ := decode_ok hd
  have hb := byte_of_decodeOpcode hm
  have ht := Opcodes.topBits_byte ha m
  rw [hb] at ht
  simp only [Instr.width, Mnemonic.mnemonic_withOperands, ← ht]
  have hle : topBits (s.mem.read s.pc) ≤ 2 := by rw [ht]; cases m <;> decide
  simp only [Option.isSome_iff_ne_none, ne_eq, State.memByte?_eq_none] at h1 h2
  omega

/-- A running block with an admissible table fetches and executes. -/
theorem step_running {s : State} (hr : s.run = .running) (ha : s.cfg.opcodes.admissible = true) :
    step s = match fetch s with
      | .ok i => exec i s
      | .error f => raiseFault s f.1 f.2 := by
  cases hf : fetch s <;> simp [step, notStepping, hr, ha, hf]

/-- All that a step that answers a next state can have done. -/
theorem step_next {s t : State} (h : step s = .next t) :
    s.run = .running ∧ s.cfg.opcodes.admissible = true ∧
      ((∃ i, fetch s = .ok i ∧ exec i s = .next t) ∨ (∃ f, fetch s = .error f ∧ t = s.trap f.1 f.2)) := by
  have hr : s.run = .running := by
    cases hr : s.run <;> simp [step, notStepping, hr] at h ⊢
  have ha : s.cfg.opcodes.admissible = true := by
    by_contra hc
    simp [step, notStepping, hr, hc] at h
  rw [step_running hr ha] at h
  refine ⟨hr, ha, ?_⟩
  split at h
  · next i hi => exact .inl ⟨i, hi, h⟩
  · next f hf => exact .inr ⟨f, hf, by injection h with h; exact h.symm⟩

/-- The state of a complete PUSH of register `r`. -/
def pushed (s : State) (r : Fin 8) : State := (s.decSp.storeTop (s.decSp.reg r)).selectPc (.seq 2)

/-- All that PUSH can do. -/
theorem execPush_next {n : Byte} {s t : State} (h : execPush n s = .next t) :
    (∃ r : Fin 8, n.toNat = r.val ∧ s.sp ≠ 0 ∧ t = pushed s r) ∨
      (s.sp = 0 ∧ n.toNat < 8 ∧ t = s.trap (.outOfBounds .stackOverflow) 0) ∨
      (8 ≤ n.toNat ∧ t = s.trap (.outOfBounds .registerIndex) n.toNat) := by
  obtain ⟨r, hr, h⟩ | h := withReg_next h
  · by_cases h0 : s.sp = 0
    · rw [if_pos h0] at h
      exact .inr (.inl ⟨h0, by omega, by injection h with h; exact h.symm⟩)
    · rw [if_neg h0] at h
      exact .inl ⟨r, hr, h0, by injection h with h; exact h.symm⟩
  · exact .inr (.inr h)

/-- All that POP can do. -/
theorem execPop_next {n : Byte} {s t : State} (h : execPop n s = .next t) :
    (∃ r : Fin 8, n.toNat = r.val ∧ (spAfterLoad s r).toNat + 1 ≤ 255 ∧
        t = ((s.setReg r s.top).setSp (spAfterLoad s r + 1)).selectPc (.seq 2)) ∨
      (∃ r : Fin 8, n.toNat = r.val ∧ 255 < (spAfterLoad s r).toNat + 1 ∧
        t = s.trap (.outOfBounds .stackUnderflow) 256) ∨
      (8 ≤ n.toNat ∧ t = s.trap (.outOfBounds .registerIndex) n.toNat) := by
  obtain ⟨r, hr, h⟩ | h := withReg_next h
  · simp only [fitsAfterIncrement, decide_eq_true_eq] at h
    split at h
    · next hf => exact .inl ⟨r, hr, hf, by injection h with h; exact h.symm⟩
    · next hf => exact .inr (.inl ⟨r, hr, by omega, by injection h with h; exact h.symm⟩)
  · exact .inr (.inr h)

/-- All that CALL can do. -/
theorem execCall_next {n : Byte} {s t : State} (h : execCall n s = .next t) :
    (∃ r : Fin 8, n.toNat = r.val ∧ s.sp ≠ 0 ∧ s.pc + 2 ≤ 255 ∧
        t = (s.decSp.storeTop (BitVec.ofNat 8 (s.pc + 2))).selectPc (.reg (s.decSp.reg r))) ∨
      (s.sp = 0 ∧ n.toNat < 8 ∧ t = s.trap (.outOfBounds .stackOverflow) 0) ∨
      (255 < s.pc + 2 ∧ n.toNat < 8 ∧ s.sp ≠ 0 ∧ t = s.trap (.outOfBounds .returnAddress) (s.pc + 2)) ∨
      (8 ≤ n.toNat ∧ t = s.trap (.outOfBounds .registerIndex) n.toNat) := by
  obtain ⟨r, hr, h⟩ | h := withReg_next h
  · by_cases h0 : s.sp = 0
    · rw [if_pos h0] at h
      exact .inr (.inl ⟨h0, by omega, by injection h with h; exact h.symm⟩)
    · rw [if_neg h0] at h
      by_cases hp : s.pc + 2 > 255
      · rw [if_pos hp] at h
        exact .inr (.inr (.inl ⟨hp, by omega, h0, by injection h with h; exact h.symm⟩))
      · rw [if_neg hp] at h
        exact .inl ⟨r, hr, h0, by omega, by injection h with h; exact h.symm⟩
  · exact .inr (.inr (.inr h))

/-- All that RET can do. -/
theorem execRet_next {s t : State} (h : execRet s = .next t) :
    (s.sp.toNat + 1 ≤ 255 ∧ t = (s.setSp (s.sp + 1)).selectPc (.stack s.top)) ∨
      (255 < s.sp.toNat + 1 ∧ t = s.trap (.outOfBounds .stackUnderflow) 256) := by
  simp only [execRet, fitsAfterIncrement, decide_eq_true_eq] at h
  split at h
  · next hf => exact .inl ⟨hf, by injection h with h; exact h.symm⟩
  · next hf => exact .inr ⟨by omega, by injection h with h; exact h.symm⟩

/-- All that LDI can do. -/
theorem execLdi_next {n imm : Byte} {s t : State} (h : execLdi n imm s = .next t) :
    (∃ r : Fin 8, n.toNat = r.val ∧ t = (s.setReg r imm).selectPc (.seq 3)) ∨
      (8 ≤ n.toNat ∧ t = s.trap (.outOfBounds .registerIndex) n.toNat) := by
  obtain ⟨r, hr, h⟩ | h := withReg_next h
  · exact .inl ⟨r, hr, by injection h with h; exact h.symm⟩
  · exact .inr h

/-- All that PRN can do. -/
theorem execPrn_next {n : Byte} {s t : State} (h : execPrn n s = .next t) :
    (∃ r : Fin 8, n.toNat = r.val ∧ t = (s.emit (s.reg r).toNat).selectPc (.seq 2)) ∨
      (8 ≤ n.toNat ∧ t = s.trap (.outOfBounds .registerIndex) n.toNat) := by
  obtain ⟨r, hr, h⟩ | h := withReg_next h
  · exact .inl ⟨r, hr, by injection h with h; exact h.symm⟩
  · exact .inr h

/-- All that the shared form of MUL, ADD and CMP can do. -/
theorem aluInstr_next {tag : AluTag} {a b : Byte} {s t : State} (h : aluInstr tag a b s = .next t) :
    (∃ ra rb : Fin 8, ∃ o, a.toNat = ra.val ∧ b.toNat = rb.val ∧ alu tag (s.reg ra) (s.reg rb) = .ok o ∧
        t = (s.writeAlu ra o).selectPc (.seq 3)) ∨
      (∃ k, tag = .other k ∧ t = s.trap .unsupportedAluOperation k) ∨
      (8 ≤ a.toNat ∧ t = s.trap (.outOfBounds .registerIndex) a.toNat) ∨
      (a.toNat < 8 ∧ 8 ≤ b.toNat ∧ t = s.trap (.outOfBounds .registerIndex) b.toNat) := by
  obtain ⟨ra, rb, ha, hb, h⟩ | h := withRegs_next h
  · split at h
    · next o ho => exact .inl ⟨ra, rb, o, ha, hb, ho, by injection h with h; exact h.symm⟩
    · next k hk =>
      refine .inr (.inl ⟨k, ?_, by injection h with h; exact h.symm⟩)
      cases tag <;> simp_all [alu]
  · exact .inr (.inr h)

/-- All that MUL can do. -/
theorem execMul_next {a b : Byte} {s t : State} (h : execMul a b s = .next t) :
    (∃ ra rb : Fin 8, a.toNat = ra.val ∧ b.toNat = rb.val ∧
        t = { s with
          x := s.x.set ra (lowByte (aluProduct (s.reg ra) (s.reg rb))),
          out := if s.cfg.mulEmitsOutput then s.out ++ [aluProduct (s.reg ra) (s.reg rb)] else s.out,
          pc := s.pc + 3 }) ∨
      (8 ≤ a.toNat ∧ t = s.trap (.outOfBounds .registerIndex) a.toNat) ∨
      (a.toNat < 8 ∧ 8 ≤ b.toNat ∧ t = s.trap (.outOfBounds .registerIndex) b.toNat) := by
  obtain ⟨ra, rb, o, ha, hb, ho, rfl⟩ | ⟨k, hk, -⟩ | h := aluInstr_next h
  · cases ho
    refine .inl ⟨ra, rb, ha, hb, ?_⟩
    cases hm : s.cfg.mulEmitsOutput <;>
      simp [State.writeAlu, hm, State.selectPc, State.emit, State.setReg, PcSelect.value]
  · cases hk
  · exact .inr h

/-- All that ADD can do. -/
theorem execAdd_next {a b : Byte} {s t : State} (h : execAdd a b s = .next t) :
    (∃ ra rb : Fin 8, a.toNat = ra.val ∧ b.toNat = rb.val ∧
        t = (s.setReg ra (aluAdd (s.reg ra) (s.reg rb))).selectPc (.seq 3)) ∨
      (8 ≤ a.toNat ∧ t = s.trap (.outOfBounds .registerIndex) a.toNat) ∨
      (a.toNat < 8 ∧ 8 ≤ b.toNat ∧ t = s.trap (.outOfBounds .registerIndex) b.toNat) := by
  obtain ⟨ra, rb, o, ha, hb, ho, rfl⟩ | ⟨k, hk, -⟩ | h := aluInstr_next h
  · cases ho
    exact .inl ⟨ra, rb, ha, hb, rfl⟩
  · cases hk
  · exact .inr h

/-- All that CMP can do. -/
theorem execCmp_next {a b : Byte} {s t : State} (h : execCmp a b s = .next t) :
    (∃ ra rb : Fin 8, a.toNat = ra.val ∧ b.toNat = rb.val ∧
        t = (s.setFl (compareFlags (s.reg ra) (s.reg rb))).selectPc (.seq 3)) ∨
      (8 ≤ a.toNat ∧ t = s.trap (.outOfBounds .registerIndex) a.toNat) ∨
      (a.toNat < 8 ∧ 8 ≤ b.toNat ∧ t = s.trap (.outOfBounds .registerIndex) b.toNat) := by
  obtain ⟨ra, rb, o, ha, hb, ho, rfl⟩ | ⟨k, hk, -⟩ | h := aluInstr_next h
  · cases ho
    exact .inl ⟨ra, rb, ha, hb, rfl⟩
  · cases hk
  · exact .inr h

/-- All that a fetch that gives no instruction can raise. -/
theorem fetch_error {s : State} {f : FaultKind × Nat} (h : fetch s = .error f) :
    (f = (.outOfBounds .fetch, s.pc) ∧ 255 < s.pc) ∨
      (f = (.outOfBounds .fetch, s.pc + 1) ∧ s.pc = 255) ∨
      (f = (.outOfBounds .fetch, s.pc + 2) ∧ s.pc = 254) ∨
      (s.pc ≤ 255 ∧ decodeOpcode s.cfg.opcodes (s.mem.read s.pc) = none ∧
        f = (.invalidOpcode, (s.mem.read s.pc).toNat)) := by
  unfold fetch at h
  split at h
  · next hop =>
    injection h with h
    exact .inl ⟨h.symm, State.memByte?_eq_none.mp hop⟩
  · next op hop =>
    obtain ⟨hpc, rfl⟩ := State.memByte?_eq_some.mp hop
    simp only [decode, Bool.and_eq_true, Option.isNone_iff_eq_none, State.memByte?_eq_none] at h
    split at h
    · next h1 => injection h with h; exact .inr (.inl ⟨h.symm, by omega⟩)
    · next h1 =>
      split at h
      · next h2 =>
        injection h with h
        have : s.pc ≠ 255 := fun e => h1 ⟨h2.1, by omega⟩
        exact .inr (.inr (.inl ⟨h.symm, by omega⟩))
      · cases hd : decodeOpcode s.cfg.opcodes (s.mem.read s.pc) with
        | none => simp only [hd] at h; injection h with h; exact .inr (.inr (.inr ⟨hpc, rfl, h.symm⟩))
        | some m =>
          simp only [hd, beq_iff_eq] at h
          split at h
          · cases h
          · next e he =>
            injection h with h
            split at he
            · next h3 => injection he with he; subst he; exact .inr (.inl ⟨h.symm, by omega⟩)
            · next h3 =>
              split at he
              · next h4 =>
                injection he with he
                subst he
                have hw : opcodeWidth (s.mem.read s.pc) ≥ 2 := by omega
                have : s.pc ≠ 255 := fun e => h3 ⟨by simpa using hw, by omega⟩
                exact .inr (.inr (.inl ⟨h.symm, by omega⟩))
              · cases he

end Sys2Proof.Machine
end

