-- ==== Sys2Proof/Tests/Slice0.lean ====
section
/-! SUPPORT. The model's own tests: encodings written out bit by bit (rule R63), ill-formed terms, the vectors of
95_test_vectors.md, and a witness for the hypotheses of each obligation. -/

namespace Sys2Proof.Tests

open Sys2Proof.Machine

/-- A state with bytes written from an address on. -/
def bytesAt (s : State) (a : Nat) (bytes : List Byte) : State := { s with mem := s.mem.place a bytes }

/-- The reset state with bytes at address `pc`, which is where it fetches. -/
def startAt (pc : Nat) (bytes : List Byte) : State := bytesAt { State.reset with pc := pc } pc bytes

/-- The reset state with an instruction's encoding at address 0. -/
def standing (i : Instr) : State := startAt 0 (encode Opcodes.ls8 i)

/-- A state with `PREFETCH_OOB_FAULTS` true. -/
def strict (s : State) : State := { s with cfg := { s.cfg with prefetchOobFaults := true } }

/-- Does the outcome have a next state with a property? -/
def nextIs (o : Host.Outcome State Fault Refusal) (p : State → Bool) : Bool :=
  match o with
  | .next t => p t
  | .fault _ => false
  | .refused _ => false

/-- The fault a next state has taken. -/
def faultOf (s : State) : Option (FaultKind × Nat × Nat) :=
  match s.run with
  | .faulted r => some (r.kind, r.info, r.pc)
  | .running => none
  | .halted => none

/-! ## Decoding: words written out from the bits of rule R63's table -/

theorem test_decode_hlt : decodeBytes Opcodes.ls8 [0b00000001] = .ok (.hlt, []) := rfl
theorem test_decode_ldi : decodeBytes Opcodes.ls8 [0b10000010, 0b00000101, 0b11111111] = .ok (.ldi 5 255, []) := rfl
theorem test_decode_prn : decodeBytes Opcodes.ls8 [0b01000111, 0b00000110] = .ok (.prn 6, []) := rfl
theorem test_decode_mul : decodeBytes Opcodes.ls8 [0b10100010, 0b00000001, 0b00000010] = .ok (.mul 1 2, []) := rfl
theorem test_decode_add : decodeBytes Opcodes.ls8 [0b10100000, 0b00000010, 0b00000001] = .ok (.add 2 1, []) := rfl
theorem test_decode_push : decodeBytes Opcodes.ls8 [0b01000101, 0b00000100] = .ok (.push 4, []) := rfl
theorem test_decode_pop : decodeBytes Opcodes.ls8 [0b01000110, 0b00000111] = .ok (.pop 7, []) := rfl
theorem test_decode_call : decodeBytes Opcodes.ls8 [0b01010000, 0b00001000] = .ok (.call 8, []) := rfl
theorem test_decode_ret : decodeBytes Opcodes.ls8 [0b00010001, 0b00000001] = .ok (.ret, [0b00000001]) := rfl
theorem test_decode_cmp : decodeBytes Opcodes.ls8 [0b10100111, 0b00000111, 0b00000000] = .ok (.cmp 7 0, []) := rfl
theorem test_decode_jmp : decodeBytes Opcodes.ls8 [0b01010100, 0b00000001] = .ok (.jmp 1, []) := rfl
theorem test_decode_jeq : decodeBytes Opcodes.ls8 [0b01010101, 0b00000010] = .ok (.jeq 2, []) := rfl
theorem test_decode_jne : decodeBytes Opcodes.ls8 [0b01010110, 0b00000011] = .ok (.jne 3, []) := rfl
theorem test_decode_missing : decodeBytes Opcodes.ls8 [0b10000010, 0b00000000] = .error (.missingOperand 2) := rfl
theorem test_decode_illegal : decodeBytes Opcodes.ls8 [0b10100001, 0, 1] = .error (.invalidOpcode 0xA1) := rfl
theorem test_decode_nothing : decodeBytes Opcodes.ls8 [] = .error .noOpcode := rfl
theorem test_encode_ldi : encode Opcodes.ls8 (.ldi 0 8) = [0b10000010, 0b00000000, 0b00001000] := rfl
theorem test_table_word : decodeTableWord 24 0xFF0582 = some (.ldi 5 255) := by decide
theorem test_table_word_short : decodeTableWord 8 0xFF0582 = some (.ldi 0 0) := by decide
theorem test_table_word_illegal : decodeTableWord 8 0x00 = none := by decide

/-! ## Ill-formed terms -/

theorem test_illformed_one_operand :
    ∀ i ∈ [Instr.ldi 8 0, .prn 8, .push 8, .pop 8, .call 8, .jmp 8, .jeq 8, .jne 255], i.wf = false := by decide
theorem test_illformed_operand_one : ∀ i ∈ [Instr.mul 8 0, .add 8 0, .cmp 8 0], i.wf = false := by decide
theorem test_illformed_operand_two : ∀ i ∈ [Instr.mul 0 8, .add 7 255, .cmp 0 8], i.wf = false := by decide
theorem test_wellformed_top : ∀ i ∈ [Instr.hlt, .ret, .ldi 7 255, .mul 7 7, .pop 7], i.wf = true := by decide
theorem test_duplicate_opcode : { Opcodes.ls8 with ret := 0x01 }.admissible = false := by decide
theorem test_wrong_top_bits : { Opcodes.ls8 with prn := 0x87 }.admissible = false := by decide
theorem test_image_too_long : imageFits (List.replicate 257 0) = false := by
  rw [imageFits, List.length_replicate]
  decide
theorem test_memory_unsorted : Memory.wf [(3, 1), (2, 1)] = false := by decide
theorem test_memory_zero_byte : Memory.wf [(3, 0)] = false := by decide
theorem test_memory_out_of_range : Memory.wf [(256, 1)] = false := by decide

/-! ## Vectors of 95_test_vectors.md -/

/-- V-L-1 -/
theorem test_hlt : nextIs (step (startAt 0 [0x01])) fun t => t.run == .halted && t.pc == 0 := by decide
/-- V-L-9, with `PREFETCH_OOB_FAULTS` -/
theorem test_hlt_prefetch : nextIs (step (strict (startAt 255 [0x01]))) fun t =>
    faultOf t == some (.outOfBounds .fetch, 256, 255) := by decide
/-- V-L-4 -/
theorem test_sub_is_illegal : nextIs (step (startAt 0 [0xA1, 0, 1])) fun t =>
    faultOf t == some (.invalidOpcode, 0xA1, 0) := by decide
/-- V-R-1 -/
theorem test_ldi : nextIs (step (startAt 0 [0x82, 5, 0xFF])) fun t => t.reg 5 == 0xFF && t.pc == 3 := by decide
/-- V-L-7 -/
theorem test_ldi_at_end : nextIs (step (startAt 254 [0x82, 0])) fun t =>
    faultOf t == some (.outOfBounds .fetch, 256, 254) := by decide
/-- V-R-5 -/
theorem test_prn_sp : nextIs (step (startAt 0 [0x47, 7])) fun t => t.out == [244] && t.pc == 2 := by decide
/-- V-L-10 -/
theorem test_prn_at_end : nextIs (step (startAt 254 [0x47, 0])) fun t => t.out == [0] && t.pc == 256 := by decide
/-- V-M-3 -/
theorem test_mul_wraps : nextIs (step (((startAt 0 [0xA2, 0, 1]).setReg 0 255).setReg 1 255)) fun t =>
    t.reg 0 == 1 && t.out == [65025] := by decide
/-- V-M-2 -/
theorem test_mul_square : nextIs (step ((startAt 0 [0xA2, 0, 0]).setReg 0 16)) fun t =>
    t.reg 0 == 0 && t.out == [256] := by decide
/-- V-A-1 -/
theorem test_add_wraps : nextIs (step (((startAt 0 [0xA0, 0, 1]).setReg 0 200).setReg 1 100)) fun t =>
    t.reg 0 == 44 && t.reg 1 == 100 := by decide
/-- V-A-7 -/
theorem test_add_first_operand_first : nextIs (step (startAt 0 [0xA0, 9, 8])) fun t =>
    faultOf t == some (.outOfBounds .registerIndex, 9, 0) := by decide
/-- V-CMP-4 -/
theorem test_cmp_unsigned : nextIs (step ((startAt 0 [0xA7, 0, 1]).setReg 1 255)) fun t => t.fl == 0x04 := by decide
/-- V-CMP-5 -/
theorem test_cmp_not_accumulated : nextIs (step (((startAt 0 [0xA7, 0, 1]).setReg 0 255).setFl 1)) fun t =>
    t.fl == 0x02 := by decide
/-- V-S-2 -/
theorem test_push_sp : nextIs (step (startAt 0 [0x45, 7])) fun t =>
    t.sp == 0xF3 && t.mem.read 0xF3 == 0xF3 := by decide
/-- V-S-3 -/
theorem test_push_over_itself : nextIs (step (((startAt 0 [0x45, 0]).setSp 1).setReg 0 9)) fun t =>
    t.sp == 0 && t.mem.read 0 == 9 && t.pc == 2 := by decide
/-- V-S-8 -/
theorem test_pop_sp : nextIs (step ((bytesAt (startAt 0 [0x46, 7]) 0xF3 [0x40]).setSp 0xF3)) fun t =>
    t.sp == 0x41 := by decide
/-- V-S-6 -/
theorem test_pop_leaves_memory : nextIs (step ((bytesAt (startAt 0 [0x46, 0]) 0xF3 [5]).setSp 0xF3)) fun t =>
    t.reg 0 == 5 && t.sp == 0xF4 && t.mem.read 0xF3 == 5 := by decide
/-- V-S-12 -/
theorem test_call_sp : nextIs (step (startAt 3 [0x50, 7])) fun t =>
    t.sp == 0xF3 && t.mem.read 0xF3 == 5 && t.pc == 0xF3 := by decide
/-- V-S-14 -/
theorem test_call_at_254 : nextIs (step (startAt 254 [0x50, 1])) fun t =>
    faultOf t == some (.outOfBounds .returnAddress, 256, 254) && t.sp == 0xF4 := by decide
/-- V-S-15 -/
theorem test_ret : nextIs (step ((bytesAt (startAt 11 [0x11]) 0xF3 [5]).setSp 0xF3)) fun t =>
    t.sp == 0xF4 && t.pc == 5 := by decide
/-- V-S-16 -/
theorem test_ret_underflow : nextIs (step ((startAt 11 [0x11]).setSp 0xFF)) fun t =>
    faultOf t == some (.outOfBounds .stackUnderflow, 256, 11) := by decide
/-- V-J-1 -/
theorem test_jmp : nextIs (step ((startAt 20 [0x54, 3]).setReg 3 12)) fun t => t.pc == 12 := by decide
/-- V-J-7 -/
theorem test_jeq_reads_bit_zero : nextIs (step (((startAt 18 [0x55, 3]).setReg 3 12).setFl 0xFE)) fun t =>
    t.pc == 20 := by decide
/-- V-J-6 -/
theorem test_jeq_taken : nextIs (step (((startAt 18 [0x55, 3]).setReg 3 12).setFl 0xFF)) fun t =>
    t.pc == 12 := by decide
/-- V-J-8 -/
theorem test_jne_taken : nextIs (step (((startAt 18 [0x56, 3]).setReg 3 12).setFl 4)) fun t => t.pc == 12 := by decide
/-- V-J-11 -/
theorem test_jne_checked_when_not_taken : nextIs (step ((startAt 18 [0x56, 8]).setFl 1)) fun t =>
    faultOf t == some (.outOfBounds .registerIndex, 8, 18) := by decide
/-- Rule R111, SUB, which no instruction reaches: 3 - 5 modulo 256. -/
theorem test_alu_sub : aluSub 3 5 = 254 := by decide
/-- Rules R69, R184: the spec's own lines. -/
theorem test_assemble : assemble Opcodes.ls8
    ["LDI R0,8".toList, "LDI R1, 9".toList, "MUL R0,R1".toList, "HLT".toList] =
    some [0x82, 0, 8, 0x82, 1, 9, 0xA2, 0, 1, 0x01] := by decide

/-! ## Witnesses: concrete states and operands that meet the hypotheses of each obligation -/

theorem witness_admissible_table : Opcodes.ls8.admissible = true := by decide
theorem witness_decoded_bytes : decodeBytes Opcodes.ls8 [0x46, 0xFF, 0x01] = .ok (.pop 0xFF, [0x01]) := rfl
theorem witness_top_bits_three : (0xC0 : Byte).toNat / 64 = 3 ∧ (0xFF : Byte).toNat / 64 = 3 := by decide
theorem witness_no_opcode_matches : ∀ m ∈ Mnemonic.all, (0xFF : Byte) ≠ Opcodes.ls8.byte m := by decide

/-- `DecodingMatchesTheWholeByte`, `IllegalOpcodesRaiseInvalidOpcode`, `FaultsAreReportedInOrder` clause 4, in the
last byte of memory. -/
theorem witness_illegal_opcode :
    let s := startAt 255 [0xFF]
    s.ready ∧ s.prefetchOk ∧ s.memByte? s.pc = some 0xFF ∧ decodeOpcode s.cfg.opcodes 0xFF = none := by decide

theorem witness_inadmissible :
    let s := { State.reset with cfg := { Config.default with opcodes := { Opcodes.ls8 with ret := 0x01 } } }
    s.run = .running ∧ s.cfg.opcodes.admissible = false := by decide

/-- `RegisterIndexAboveSevenFaults` and every trap clause on a register operand. -/
theorem witness_register_bounds :
    8 ≤ (8 : Byte).toNat ∧ 8 ≤ (255 : Byte).toNat ∧ (7 : Byte).toNat < 8 ∧ (6 : Byte).toNat < 7 ∧
    (7 : Byte).toNat = (7 : Fin 8).val ∧ (0 : Byte).toNat = (0 : Fin 8).val := by decide

/-- `FetchStageFaults`, first clause: the operand byte of each instruction that has one, at address 256. -/
theorem witness_fetch_stage_operand :
    ∀ m ∈ Mnemonic.all, m.operandCount ≠ 0 →
      let s := startAt (256 - m.operandCount) [Opcodes.ls8.byte m]
      s.ready ∧ s.memByte? s.pc = some (s.cfg.opcodes.byte m) ∧ 256 < s.pc + 1 + m.operandCount := by decide

/-- `FetchStageFaults`, second clause: an unconsumed pre-fetch byte, for each instruction. -/
theorem witness_fetch_stage_prefetch :
    ∀ m ∈ Mnemonic.all,
      let s := strict (startAt 254 [Opcodes.ls8.byte m])
      s.ready ∧ s.memByte? s.pc = some (s.cfg.opcodes.byte m) ∧
        s.cfg.prefetchOobFaults = true ∧ 253 < s.pc := by decide

/-- `PushStoresARegister`: SP at both ends of the range that completes, and the SP that faults. -/
theorem witness_push : (State.reset.setSp 1).sp ≠ 0 ∧ (State.reset.setSp 255).sp ≠ 0 ∧
    (State.reset.setSp 0).sp = 0 := by decide

/-- `PopLoadsARegister`, clause by clause: SP 254 and 255, and for POP R7 a popped byte of 254 and 255. -/
theorem witness_pop :
    (State.reset.setSp 254).sp.toNat < 255 ∧ (State.reset.setSp 255).sp.toNat = 255 ∧
    ((bytesAt State.reset 0xF4 [254]).mem.read State.reset.sp.toNat).toNat < 255 ∧
    ((bytesAt State.reset 0xF4 [255]).mem.read State.reset.sp.toNat).toNat = 255 := by decide

/-- `CallPushesTheReturnAddress`: the last address that completes and the first whose return address does not fit. -/
theorem witness_call :
    let s := { State.reset with pc := 253 }
    let u := { State.reset with pc := 254 }
    (s.sp ≠ 0 ∧ s.pc + 2 ≤ 255) ∧ (u.sp ≠ 0 ∧ 255 < u.pc + 2) := by decide

theorem witness_ret : (State.reset.setSp 254).sp.toNat < 255 ∧ (State.reset.setSp 255).sp.toNat = 255 := by decide

theorem witness_jeq_and_jne : (7 : Byte).toNat = (7 : Fin 8).val ∧
    (∃ t, exec (.jeq 7) State.reset = .next t) ∧ ∃ u, exec (.jne 7) State.reset = .next u :=
  ⟨rfl, ⟨_, rfl⟩, ⟨_, rfl⟩⟩

/-- `CmpSetsExactlyOneFlagBit`: a comparison of each kind. -/
theorem witness_cmp :
    (∃ t, exec (.cmp 0 0) State.reset = .next t ∧ t.fl = 0x01) ∧
    (∃ t, exec (.cmp 7 0) State.reset = .next t ∧ t.fl = 0x02) ∧
    ∃ t, exec (.cmp 0 7) State.reset = .next t ∧ t.fl = 0x04 :=
  ⟨⟨_, rfl, rfl⟩, ⟨_, rfl, rfl⟩, ⟨_, rfl, rfl⟩⟩

/-- `UnsupportedAluOperationNeverRaised` and `FaultsWriteOnlyTheRunState`: a step that faults. -/
theorem witness_faulting_step : step State.reset = .next (State.reset.trap .invalidOpcode 0) ∧
    (State.reset.trap .invalidOpcode 0).run = .faulted { kind := .invalidOpcode, info := 0, pc := 0 } :=
  ⟨rfl, rfl⟩

/-- The four frames: each form they name has a next state. -/
theorem witness_frames :
    (∃ t, exec .hlt State.reset = .next t) ∧ (∃ t, exec (.prn 7) State.reset = .next t) ∧
    (∃ t, exec (.jmp 7) State.reset = .next t) ∧ (∃ t, exec (.jeq 7) State.reset = .next t) ∧
    (∃ t, exec (.jne 7) State.reset = .next t) ∧ (∃ t, exec (.cmp 7 7) State.reset = .next t) ∧
    (∃ t, exec (.ldi 7 1) State.reset = .next t) ∧ (∃ t, exec (.add 7 7) State.reset = .next t) ∧
    (∃ t, exec (.mul 7 7) State.reset = .next t) ∧ (∃ t, exec (.push 7) State.reset = .next t) ∧
    (∃ t, exec (.call 7) State.reset = .next t) ∧ (∃ t, exec (.pop 7) State.reset = .next t) ∧
    ∃ t, exec .ret State.reset = .next t :=
  ⟨⟨_, rfl⟩, ⟨_, rfl⟩, ⟨_, rfl⟩, ⟨_, rfl⟩, ⟨_, rfl⟩, ⟨_, rfl⟩, ⟨_, rfl⟩, ⟨_, rfl⟩, ⟨_, rfl⟩, ⟨_, rfl⟩, ⟨_, rfl⟩,
    ⟨_, rfl⟩, ⟨_, rfl⟩⟩

/-- `StepRunsTheDecodedInstruction`: an LDI in the last three bytes of memory, with the pre-fetch parameter set. -/
theorem witness_step_runs :
    let s := strict (startAt 253 [0x82, 0x05, 0xFF])
    (s.ready ∧ s.prefetchOk ∧ s.memByte? s.pc = some 0x82) ∧
    decode s.cfg.opcodes 0x82 (s.memByte? (s.pc + 1)) (s.memByte? (s.pc + 2)) = .ok (.ldi 5 255) :=
  ⟨by decide, rfl⟩

theorem witness_step_runs_encoded :
    let s := startAt 254 (encode Opcodes.ls8 (.prn 7))
    s.ready ∧ s.prefetchOk ∧ ∀ k (h : k < (encode s.cfg.opcodes (.prn 7)).length),
      s.memByte? (s.pc + k) = some ((encode s.cfg.opcodes (.prn 7))[k]'h) := by decide

/-- `FaultsAreReportedInOrder`, the fetch-stage clauses. -/
theorem witness_fetch_order :
    ((startAt 256 []).ready ∧ (startAt 256 []).pc = 256) ∧
    ((strict (startAt 255 [0x01])).ready ∧ (strict (startAt 255 [0x01])).cfg.prefetchOobFaults = true) ∧
    ((strict (startAt 254 [0x01])).ready ∧ (strict (startAt 254 [0x01])).cfg.prefetchOobFaults = true) ∧
    ((startAt 255 [0x47]).ready ∧ (startAt 255 [0x47]).prefetchOk ∧
      (startAt 255 [0x47]).memByte? 255 = some (Opcodes.ls8.byte .prn) ∧ 1 ≤ Mnemonic.prn.operandCount) ∧
    ((startAt 254 [0x82]).ready ∧ (startAt 254 [0x82]).prefetchOk ∧
      (startAt 254 [0x82]).memByte? 254 = some (Opcodes.ls8.byte .ldi) ∧ Mnemonic.ldi.operandCount = 2) := by decide

/-- `FaultsAreReportedInOrder`, the execute-stage clauses. -/
theorem witness_execute_order :
    (registerOperands (.add 8 9))[0]? = some 8 ∧ registerOperands (.add 7 8) = [7, 8] ∧
    (State.reset.setSp 0).sp = 0 ∧ (State.reset.setSp 255).sp = 255 ∧ (6 : Byte).toNat < 7 ∧
    ({ State.reset with pc := 254 }.sp ≠ 0 ∧ { State.reset with pc := 254 }.pc = 254) := by decide

/-- Every instruction standing at 0 in the reset state is fetched, runs and completes: `PcMultiplexerSources`,
`OnlyHltHalts`, `StepsKeepTheConfiguration`, `StepKeepsTheInvariant`. -/
theorem witness_every_instruction_completes :
    ∀ i ∈ [Instr.hlt, .ldi 0 8, .prn 7, .mul 7 7, .add 7 7, .push 7, .pop 0, .call 7, .ret, .cmp 0 7, .jmp 7, .jeq 7,
        .jne 7],
      nextIs (step (standing i)) (fun t => !t.run.isFaulted) = true ∧ (standing i).wf = true := by decide

theorem witness_fetched : fetch (standing (.call 7)) = .ok (.call 7) ∧ fetch (standing .hlt) = .ok .hlt := ⟨rfl, rfl⟩

theorem witness_hlt_step : step (standing .hlt) = .next { standing .hlt with run := .halted } := rfl

/-- `OnlyRunningBlocksStep`, `StatusPortOutcome`: a block in each run state. -/
theorem witness_run_states : State.reset.ready ∧ State.reset.run = .running ∧
    { State.reset with run := .halted }.run = .halted ∧
    (State.reset.trap .invalidOpcode 0).run = .faulted ⟨.invalidOpcode, 0, 0⟩ := by decide

/-- `FaultCausesAndCodes`: a well-formed state whose step raises each reachable fault. -/
theorem witness_each_fault :
    ∀ p ∈ [(startAt 0 [0x00], FaultKind.invalidOpcode), (startAt 256 [], .outOfBounds .fetch),
        (startAt 255 [0x47], .outOfBounds .fetch), (strict (startAt 255 [0x01]), .outOfBounds .fetch),
        (startAt 0 [0x47, 8], .outOfBounds .registerIndex), ((startAt 0 [0x45, 0]).setSp 0, .outOfBounds .stackOverflow),
        ((startAt 0 [0x50, 0]).setSp 0, .outOfBounds .stackOverflow), ((startAt 0 [0x11]).setSp 255, .outOfBounds .stackUnderflow),
        ((startAt 0 [0x46, 0]).setSp 255, .outOfBounds .stackUnderflow), (bytesAt (startAt 0 [0x46, 7]) 0xF4 [255], .outOfBounds .stackUnderflow),
        (startAt 254 [0x50, 1], .outOfBounds .returnAddress)],
      p.1.wf = true ∧ nextIs (step p.1) (fun t => (faultOf t).map (·.1) == some p.2) = true := by decide

/-- The largest image that a launch takes, and the smallest it refuses. -/
theorem witness_image_lengths :
    (List.replicate 256 (0x01 : Byte)).length ≤ 256 ∧ 256 < (List.replicate 257 (0x01 : Byte)).length := by
  rw [List.length_replicate, List.length_replicate]
  decide

/-- Launch arguments with an image and no register at 0. -/
def launchArgs (image : List Byte) : LaunchArgs where
  initRegs := #v[1, 2, 3, 4, 5, 6, 7]
  initFl := 0xFE
  image := image

theorem witness_launch : ∃ s, launch Config.default (launchArgs [0x82, 0x00]) = .ok s := ⟨_, rfl⟩

theorem witness_empty_launch : (∃ s, launch Config.default (launchArgs []) = .ok s) ∧
    Config.default.opcodes = Opcodes.ls8 := ⟨⟨_, rfl⟩, rfl⟩

/-- `OnlyPushAndCallWriteMemory`: a step of each that changes a byte. -/
theorem witness_memory_writers :
    nextIs (step (standing (.push 7))) (fun t => t.mem.read 0xF3 != (standing (.push 7)).mem.read 0xF3) = true ∧
    nextIs (step (standing (.call 7))) (fun t => t.mem.read 0xF3 != (standing (.call 7)).mem.read 0xF3) = true := by
  decide

/-- `FlagsWrittenByCmpReadByJumps`: a step that changes `fl`, and an instruction that does not look at it. -/
theorem witness_flags :
    nextIs (step (standing (.cmp 0 7))) (fun t => t.fl != (standing (.cmp 0 7)).fl) = true ∧
    (∃ t, exec (.ldi 0 1) State.reset = .next t) ∧ (7 : Byte).toNat < 8 := ⟨by decide, ⟨_, rfl⟩, by decide⟩

/-- `JumpsTestBitZeroAlone`: two flags values that agree in bit 0 alone. -/
theorem witness_bit_zero : (0xFF : Byte).getLsbD 0 = (State.reset.setFl 1).fl.getLsbD 0 ∧
    ∃ t, exec (.jeq 7) (State.reset.setFl 1) = .next t := ⟨by decide, ⟨_, rfl⟩⟩

/-- `OutputIsAppendedAndNeverRead`: a step that emits, by PRN and by MUL, and one that does not. -/
theorem witness_output :
    nextIs (step (standing (.prn 7))) (fun t => t.out == [244]) = true ∧
    nextIs (step (standing (.mul 7 7))) (fun t => t.out == [59536]) = true ∧
    nextIs (step (standing (.ldi 0 1))) (fun t => t.out == []) = true := by decide

/-- `StackNeverWraps`: a push at SP = 1 and a pop at SP = 254 complete. -/
theorem witness_stack_ends :
    (∃ t, exec (.push 0) (State.reset.setSp 1) = .next t ∧ t.run = .running) ∧
    (∃ t, exec (.pop 0) (State.reset.setSp 254) = .next t ∧ t.run = .running) ∧
    (∃ t, exec .ret (State.reset.setSp 254) = .next t ∧ t.run = .running) ∧ State.reset.run = .running ∧
    (0 : Byte).toNat ≠ 7 := ⟨⟨_, rfl, rfl⟩, ⟨_, rfl, rfl⟩, ⟨_, rfl, rfl⟩, rfl, by decide⟩

/-- The round trips, from PUSH R7 and CALL R7: the second instruction may follow at once. -/
theorem witness_round_trips :
    State.reset.sp ≠ 0 ∧ State.reset.pc + 2 ≤ 255 ∧ (∃ t, exec (.push 7) State.reset = .next t) ∧
    ∃ t, exec (.call 7) State.reset = .next t := ⟨by decide, by decide, ⟨_, rfl⟩, ⟨_, rfl⟩⟩

/-- `PushedBytesAreFetched`: a pushed HLT opcode and a pushed byte that is no opcode, fetched where they stand. -/
theorem witness_pushed_bytes :
    (∃ t, exec (.push 0) (State.reset.setReg 0 0x01) = .next t ∧
      { t with pc := t.sp.toNat }.ready ∧ { t with pc := t.sp.toNat }.prefetchOk ∧ t.reg 0 = Opcodes.ls8.hlt) ∧
    ∃ t, exec (.push 0) (State.reset.setReg 0 0xFF) = .next t ∧
      { t with pc := t.sp.toNat }.ready ∧ { t with pc := t.sp.toNat }.prefetchOk ∧ t.reg 0 = 0xFF :=
  ⟨⟨_, rfl, by decide, by decide, by decide⟩, ⟨_, rfl, by decide, by decide, by decide⟩⟩

theorem witness_memories : (0xF3 : Byte) ≠ 0xF4 ∧ Memory.wf [(0, 1), (255, 2)] = true := by decide

/-- `UnnamedRegistersDoNotMatter`: a register that an instruction does not name, and SP for one that is no stack
instruction. -/
theorem witness_unnamed : usesReg (.ldi 0 1) 3 = false ∧ usesReg (.push 0) 3 = false ∧ usesReg (.jmp 0) 7 = false ∧
    (∃ t, exec (.ldi 0 1) State.reset = .next t) ∧ ∃ t, exec (.push 0) State.reset = .next t :=
  ⟨by decide, by decide, by decide, ⟨_, rfl⟩, ⟨_, rfl⟩⟩

theorem witness_placed_word : State.reset.cfg = Config.default ∧ decodeTableWord 24 0x0982FF = none ∧
    decodeTableWord 24 0x090082 = some (.ldi 0 9) ∧ { State.reset with pc := 256 }.cfg = Config.default := by decide

theorem witness_wellformed : (Instr.ldi 7 255).wf = true ∧ (Instr.cmp 0 7).wf = true := by decide

end Sys2Proof.Tests
end

section
/-! The trace port (rule R11). -/

namespace Sys2Proof.Machine

/-- Rule R11's reading of a byte of memory: shown at an address below 256 and absent from there on. -/
theorem State.memByte?_eq_ite (s : State) (a : Nat) :
    s.memByte? a = if a < 256 then some (s.mem.read a) else none := by
  split
  · next h => exact State.memByte?_eq_some.mpr ⟨Nat.le_of_lt_succ h, rfl⟩
  · next h => exact State.memByte?_eq_none.mpr (Nat.not_lt.mp h)

/-- Settles O39: the PC and the registers are the state's own fields, and each of the three bytes is one bounded read
of memory. -/
theorem tracePortView : Obligations.TracePortView :=
  fun s => ⟨rfl, fun _ => rfl, s.memByte?_eq_ite s.pc, s.memByte?_eq_ite (s.pc + 1), s.memByte?_eq_ite (s.pc + 2)⟩

end Sys2Proof.Machine
end

section
/-! Reset (rule R32), and the two pieces of state that few instructions touch: the flags register (rule R25) and the
output stream (rule R27). -/

namespace Sys2Proof.Machine

/-! ## The launch -/

/-- A launch with an admissible table and an image that fits starts from reset (rules R12, R65, R183). -/
theorem launch_of_fits {c : Config} {l : LaunchArgs} (ha : c.opcodes.admissible = true)
    (hl : l.image.length ≤ 256) : launch c l = .ok (State.resetWith c l) := by
  simp [launch, ha, imageFits, hl]

@[simp] theorem State.resetWith_sp (c : Config) (l : LaunchArgs) : (State.resetWith c l).sp = 0xF4 :=
  Vector.getElem_push_eq

theorem State.resetWith_reg (c : Config) (l : LaunchArgs) {k : Nat} (h : k < 7) :
    (State.resetWith c l).reg ⟨k, by omega⟩ = l.initRegs[k] :=
  Vector.getElem_push_lt h

/-- Memory after reset: the image from address 0, and 0 from its end on (rules R32, R183). -/
theorem State.resetWith_read (c : Config) (l : LaunchArgs) (a : Nat) :
    (State.resetWith c l).mem.read a = l.image[a]?.getD 0 := by
  rw [← Memory.read_image 0 a l.image, Nat.zero_add]
  rfl

/-- Settles O43: the launch gives `State.resetWith`, and each piece of state is one fact about that state. -/
theorem launchGivesTheResetState : Obligations.LaunchGivesTheResetState := by
  intro c l ha hl
  refine ⟨State.resetWith c l, launch_of_fits ha hl, fun k h => State.resetWith_reg c l h, State.resetWith_sp c l,
    rfl, rfl, fun a h => ?_, fun a h => ?_, rfl, rfl, rfl⟩
  · rw [State.resetWith_read, List.getElem?_eq_getElem h, Option.getD_some]
  · rw [State.resetWith_read, List.getElem?_eq_none h, Option.getD_none]

/-! ## Changing the flags and the output under an instruction

One non-interference lemma, `exec_mapFlOut`, serves rules R25 and R27: an instruction run on a state whose `fl` and
`out` have been changed gives its old next state with the same change. With constant functions for the change it
gives the frames too. -/

/-- An outcome with its next state changed. -/
def onNext (f : State → State) : Host.Outcome State Fault Refusal → Host.Outcome State Fault Refusal
  | .next t => .next (f t)
  | .fault r => .fault r
  | .refused r => .refused r

/-- The state with its flags register and its output stream changed. -/
def State.mapFlOut (g : Byte → Byte) (h : List Nat → List Nat) (s : State) : State :=
  { s with fl := g s.fl, out := h s.out }

/-- What an instruction asks of a change of `fl` and `out` made under it: JEQ and JNE that the EQUAL test is kept, CMP
that the change does nothing to the flags it writes, PRN and MUL that it commutes with emitting a value, and every
other instruction nothing. -/
def Tolerates (g : Byte → Byte) (h : List Nat → List Nat) (s : State) : Instr → Prop
  | .jeq _ | .jne _ => equalSet (g s.fl) = equalSet s.fl
  | .cmp _ _ => ∀ v, g v = v
  | .prn _ | .mul _ _ => ∀ v, h (s.out ++ [v]) = h s.out ++ [v]
  | .hlt | .ldi _ _ | .add _ _ | .push _ | .pop _ | .call _ | .ret | .jmp _ => True

section
variable {g : Byte → Byte} {h : List Nat → List Nat} {s : State}

theorem State.emit_mapFlOut {v : Nat} (hv : h (s.out ++ [v]) = h s.out ++ [v]) :
    (s.mapFlOut g h).emit v = (s.emit v).mapFlOut g h := by
  simp [State.mapFlOut, State.emit, hv]

theorem State.setFl_mapFlOut {v : Byte} (hv : g v = v) :
    (s.mapFlOut g h).setFl v = (s.setFl v).mapFlOut g h := by
  simp [State.mapFlOut, State.setFl, hv]

/-- The writing of MUL's answer: the byte into a register, and the product emitted if `MUL_EMITS_OUTPUT`. -/
theorem State.writeAlu_product_mapFlOut {r : Fin 8} {v : Byte} {p : Nat} (hp : h (s.out ++ [p]) = h s.out ++ [p]) :
    (s.mapFlOut g h).writeAlu r { result := some v, product := some p } =
      (s.writeAlu r { result := some v, product := some p }).mapFlOut g h := by
  cases hm : s.cfg.mulEmitsOutput <;> simp [State.writeAlu, State.mapFlOut, State.setReg, State.emit, hm, hp]

/-- A register operand check reads neither `fl` nor `out`. -/
theorem withReg_mapFlOut {n : Byte} {k k' : Fin 8 → Host.Outcome State Fault Refusal}
    (hk : ∀ r, k' r = onNext (State.mapFlOut g h) (k r)) :
    withReg n (s.mapFlOut g h) k' = onNext (State.mapFlOut g h) (withReg n s k) := by
  unfold withReg
  cases regOperand? n with
  | none => rfl
  | some r => exact hk r

/-- An instruction's last act, the selection of the next PC, sees neither `fl` nor `out`. -/
theorem next_selectPc_mapFlOut {u v : State} (sel : PcSelect) (huv : u = v.mapFlOut g h) :
    (.next (u.selectPc sel) : Host.Outcome State Fault Refusal) =
      onNext (State.mapFlOut g h) (.next (v.selectPc sel)) := by
  rw [huv]; rfl

/-- The shared form of the jumps reads `fl` only through the test it is given. -/
theorem jumpIf_mapFlOut (taken : Bool) (n : Byte) :
    jumpIf taken n (s.mapFlOut g h) = onNext (State.mapFlOut g h) (jumpIf taken n s) :=
  withReg_mapFlOut fun _ => rfl

/-- An instruction that tolerates a change of `fl` and `out` gives its next state with the same change. -/
theorem exec_mapFlOut {i : Instr} (hi : Tolerates g h s i) :
    exec i (s.mapFlOut g h) = onNext (State.mapFlOut g h) (exec i s) := by
  cases i with
  | hlt => rfl
  | ldi n imm => exact withReg_mapFlOut fun _ => rfl
  | prn n => exact withReg_mapFlOut fun _ => next_selectPc_mapFlOut _ (State.emit_mapFlOut (hi _))
  | mul a b =>
    refine withReg_mapFlOut fun ra => withReg_mapFlOut fun rb => next_selectPc_mapFlOut _ ?_
    exact State.writeAlu_product_mapFlOut (hi _)
  | add a b => exact withReg_mapFlOut fun _ => withReg_mapFlOut fun _ => rfl
  | cmp a b =>
    exact withReg_mapFlOut fun _ => withReg_mapFlOut fun _ => next_selectPc_mapFlOut _ (State.setFl_mapFlOut (hi _))
  | push n => exact withReg_mapFlOut fun _ => Eq.symm ((apply_ite (onNext _) _ _ _).trans rfl)
  | pop n => exact withReg_mapFlOut fun _ => Eq.symm ((apply_ite (onNext _) _ _ _).trans rfl)
  | call n =>
    refine withReg_mapFlOut fun _ => Eq.symm ?_
    rw [apply_ite (onNext _), apply_ite (onNext _)]
    rfl
  | ret => exact Eq.symm ((apply_ite (onNext _) _ _ _).trans rfl)
  | jmp n => exact jumpIf_mapFlOut _ n
  | jeq n => exact (congrArg (jumpIf · n _) hi).trans (jumpIf_mapFlOut _ n)
  | jne n => exact (congrArg (fun e => jumpIf (!e) n _) hi).trans (jumpIf_mapFlOut _ n)

/-- `exec_mapFlOut` at a next state. -/
theorem exec_mapFlOut_next {i : Instr} {t : State} (hi : Tolerates g h s i) (he : exec i s = .next t) :
    exec i (s.mapFlOut g h) = .next (t.mapFlOut g h) := by
  rw [exec_mapFlOut hi, he]
  rfl

/-- A change that leaves the state as it is leaves the next state as it is. With a constant for `g` or `h` this is a
frame. -/
theorem exec_mapFlOut_fixed {i : Instr} {t : State} (hs : s.mapFlOut g h = s) (hi : Tolerates g h s i)
    (he : exec i s = .next t) : t.mapFlOut g h = t := by
  have hm := exec_mapFlOut_next hi he
  rw [hs, he] at hm
  exact (Host.Outcome.next.inj hm).symm

end

/-! ## The flags (rule R25) -/

/-- The frame of `fl`: the change that sets `fl` to what it already is leaves the state, and so the next state, as it
is. -/
theorem exec_fl {i : Instr} {s t : State} (hi : ∀ a b, i ≠ .cmp a b) (he : exec i s = .next t) : t.fl = s.fl := by
  have hk : Tolerates (fun _ => s.fl) id s i := by
    cases i with
    | cmp a b => exact absurd rfl (hi a b)
    | _ => simp [Tolerates]
  exact (congrArg State.fl (exec_mapFlOut_fixed rfl hk he)).symm

/-- A step that changes `fl` ran CMP; a fetch-stage fault changes `run` alone. -/
theorem step_changes_fl {s t : State} (hs : step s = .next t) (hf : t.fl ≠ s.fl) :
    ∃ a b, fetch s = .ok (.cmp a b) := by
  obtain ⟨-, -, ⟨i, hi, he⟩ | ⟨f, -, rfl⟩⟩ := step_next hs
  · by_contra hc
    push Not at hc
    exact hf (exec_fl (fun a b e => hc a b (e ▸ hi)) he)
  · exact absurd rfl hf

/-- CMP overwrites all of `fl`, so its next state does not depend on what `fl` held. -/
theorem execCmp_setFl {a b : Byte} {ra rb : Fin 8} (ha : a.toNat = ra.val) (hb : b.toNat = rb.val) (s : State)
    (f : Byte) : execCmp a b (s.setFl f) = execCmp a b s := by
  simp only [execCmp, aluInstr_regs (tag := .cmp) ha hb _ rfl]
  rfl

/-- Settles O48: the frame of `fl`, non-interference under the change that sets `fl` to a constant, and CMP's
overwriting. -/
theorem flagsWrittenByCmpReadByJumps : Obligations.FlagsWrittenByCmpReadByJumps := by
  refine ⟨fun s t => step_changes_fl, fun i s t f hjeq hjne hcmp he => ?_, fun s a b f ha hb => ?_⟩
  · have hk : Tolerates (fun _ => f) id s i := by
      cases i with
      | jeq n => exact absurd rfl (hjeq n)
      | jne n => exact absurd rfl (hjne n)
      | cmp a b => exact absurd rfl (hcmp a b)
      | _ => simp [Tolerates]
    exact exec_mapFlOut_next hk he
  · exact execCmp_setFl (ra := ⟨a.toNat, ha⟩) (rb := ⟨b.toNat, hb⟩) rfl rfl s f

/-! ## The output stream (rule R27) -/

/-- The frame of `out`: as for `fl`, by the change that sets `out` to what it already is. -/
theorem exec_out {i : Instr} {s t : State} (hprn : ∀ n, i ≠ .prn n) (hmul : ∀ a b, i ≠ .mul a b)
    (he : exec i s = .next t) : t.out = s.out := by
  have hk : Tolerates id (fun _ => s.out) s i := by
    cases i with
    | prn n => exact absurd rfl (hprn n)
    | mul a b => exact absurd rfl (hmul a b)
    | _ => simp [Tolerates]
  exact (congrArg State.out (exec_mapFlOut_fixed rfl hk he)).symm

/-- `l` is what an instruction run from `s` may append to `out`: nothing, PRN's register value, or MUL's exact product
when `MUL_EMITS_OUTPUT` (rules R101, R113). -/
def Emits (i : Instr) (s : State) (l : List Nat) : Prop :=
  l ≠ [] →
    (∃ (n : Byte) (r : Fin 8), i = .prn n ∧ n.toNat = r.val ∧ l = [(s.reg r).toNat]) ∨
    (∃ (a b : Byte) (ra rb : Fin 8), i = .mul a b ∧ s.cfg.mulEmitsOutput = true ∧
      a.toNat = ra.val ∧ b.toNat = rb.val ∧ l = [(s.reg ra).toNat * (s.reg rb).toNat])

theorem emits_nil (i : Instr) (s : State) : Emits i s [] := fun h => absurd rfl h

/-- An instruction appends to `out` what it may emit, and nothing else happens to `out`. -/
theorem exec_appends {i : Instr} {s t : State} (he : exec i s = .next t) :
    ∃ l, t.out = s.out ++ l ∧ Emits i s l := by
  have nothing (h : t.out = s.out) : ∃ l, t.out = s.out ++ l ∧ Emits i s l := ⟨[], by simp [h], emits_nil i s⟩
  cases i with
  | prn n =>
    obtain ⟨r, hr, rfl⟩ | ⟨-, rfl⟩ := execPrn_next he
    · exact ⟨_, rfl, fun _ => .inl ⟨n, r, rfl, hr, rfl⟩⟩
    · exact nothing rfl
  | mul a b =>
    obtain ⟨ra, rb, ha, hb, rfl⟩ | ⟨-, rfl⟩ | ⟨-, -, rfl⟩ := execMul_next he
    · cases hm : s.cfg.mulEmitsOutput with
      | false => exact ⟨[], by simp, emits_nil _ _⟩
      | true => exact ⟨[aluProduct (s.reg ra) (s.reg rb)], by simp,
          fun _ => .inr ⟨a, b, ra, rb, rfl, hm, ha, hb, rfl⟩⟩
    · exact nothing rfl
    · exact nothing rfl
  | _ => exact nothing (exec_out (by simp) (by simp) he)

/-- Nothing reads `out`: from any other output the instruction gives the same state with the same values appended. The
change that shows it keeps what stands beyond the old output. -/
theorem exec_setOut {i : Instr} {s t : State} {l : List Nat} (he : exec i s = .next t) (hl : t.out = s.out ++ l)
    (o : List Nat) : exec i { s with out := o } = .next { t with out := o ++ l } := by
  have hk : Tolerates id (fun q => o ++ q.drop s.out.length) s i := by cases i <;> simp [Tolerates]
  simpa [State.mapFlOut, hl] using exec_mapFlOut_next hk he

/-- A step that fetches an instruction runs it. -/
theorem step_of_fetch_ok {s : State} {i : Instr} (hr : s.run = .running) (ha : s.cfg.opcodes.admissible = true)
    (hi : fetch s = .ok i) : step s = exec i s := by
  rw [step_running hr ha, hi]

/-- A step whose fetch stage fails raises the fault. -/
theorem step_of_fetch_error {s : State} {f : FaultKind × Nat} (hr : s.run = .running)
    (ha : s.cfg.opcodes.admissible = true) (hf : fetch s = .error f) : step s = .next (s.trap f.1 f.2) := by
  rw [step_running hr ha, hf]
  rfl

/-- Settles O50: `exec_appends` gives the values appended and `exec_setOut` their independence from the old output;
`fetch` does not read `out`, and a fetch-stage fault appends nothing. -/
theorem outputIsAppendedAndNeverRead : Obligations.OutputIsAppendedAndNeverRead := by
  refine ⟨fun s t hs => ?_, fun _ _ => rfl⟩
  obtain ⟨hr, ha, ⟨i, hi, he⟩ | ⟨f, hf, rfl⟩⟩ := step_next hs
  · obtain ⟨l, hl, hemits⟩ := exec_appends he
    refine ⟨l, hl, fun hne => ?_, fun o => ?_⟩
    · obtain ⟨n, r, rfl, h⟩ | ⟨a, b, ra, rb, rfl, h⟩ := hemits hne
      · exact .inl ⟨n, r, hi, h⟩
      · exact .inr ⟨a, b, ra, rb, hi, h⟩
    · exact (step_of_fetch_ok (s := { s with out := o }) hr ha hi).trans (exec_setOut he hl o)
  · refine ⟨[], (List.append_nil _).symm, fun hne => absurd rfl hne, fun o => ?_⟩
    rw [List.append_nil]
    exact step_of_fetch_error (s := { s with out := o }) hr ha hf

end Sys2Proof.Machine
end

section
/-! Opcode bytes (rules R61, R63, R64, R66): which byte the decoder answers with which mnemonic, how many bytes it
answers, and the step that fetches a byte it does not. -/

namespace Sys2Proof

/-! ## Which bytes the decoder answers -/

/-- Rule R64's whole-byte comparison, where it answers. -/
theorem decodeOpcode_eq_some_iff {t : Opcodes} (ht : t.admissible = true) {op : Byte} {m : Mnemonic} :
    decodeOpcode t op = some m ↔ op = t.byte m :=
  ⟨fun h => (byte_of_decodeOpcode h).symm, fun h => h ▸ decodeOpcode_byte ht m⟩

/-- Rule R64's whole-byte comparison, where it does not answer; this holds of every table. -/
theorem decodeOpcode_eq_none_iff {t : Opcodes} {op : Byte} : decodeOpcode t op = none ↔ ∀ m, op ≠ t.byte m := by
  simp [decodeOpcode, Mnemonic.mem_all]

theorem decodeOpcode_isSome_iff {t : Opcodes} {op : Byte} : (decodeOpcode t op).isSome = true ↔ op ∈ t.values := by
  rw [← Option.ne_none_iff_isSome, ne_eq, decodeOpcode_eq_none_iff]
  simp [Opcodes.values, Mnemonic.mem_all, eq_comm]

theorem Mnemonic.operandCount_le (m : Mnemonic) : m.operandCount ≤ 2 := by cases m <;> decide

/-- Top bits 0b11 would announce three operands, and no mnemonic has so many (rule R61). -/
theorem decodeOpcode_of_topBits_three {t : Opcodes} (ht : t.admissible = true) {op : Byte} (hop : topBits op = 3) :
    decodeOpcode t op = none := by
  rw [decodeOpcode_eq_none_iff]
  rintro m rfl
  have := Opcodes.topBits_byte ht m
  have := m.operandCount_le
  omega

/-- Settles O4: an admissible table's top bits are operand counts, and the lengths follow. -/
theorem opcodeTopBitsGiveTheWidth : Obligations.OpcodeTopBitsGiveTheWidth := by
  intro t ht
  refine ⟨fun i => ?_, fun op hop => decode_of_none (decodeOpcode_of_topBits_three ht hop)⟩
  have hcount : (t.byte i.mnemonic).toNat / 64 = i.mnemonic.operandCount := Opcodes.topBits_byte ht i.mnemonic
  exact ⟨hcount.trans i.length_operands.symm, Laws.EncodedLength.all_forms i t ht, by rw [hcount, Instr.width]⟩

/-! ## How many bytes the decoder answers -/

/-- The numbers of the bytes that the decoder answers are those of the table's values, in another order. -/
theorem filter_decodeOpcode_isSome_perm {t : Opcodes} (ht : t.admissible = true) :
    ((List.range 256).filter fun k => (decodeOpcode t (BitVec.ofNat 8 k)).isSome).Perm
      (t.values.map BitVec.toNat) := by
  have hnodup : (t.values.map BitVec.toNat).Nodup :=
    (Opcodes.admissible_iff.mp ht).1.map fun _ _ => BitVec.eq_of_toNat_eq
  rw [List.perm_ext_iff_of_nodup (List.nodup_range.filter _) hnodup]
  intro k
  rw [List.mem_filter, List.mem_range, decodeOpcode_isSome_iff, List.mem_map]
  constructor
  · rintro ⟨hk, hmem⟩
    exact ⟨_, hmem, by rw [BitVec.toNat_ofNat, Nat.mod_eq_of_lt hk]⟩
  · rintro ⟨v, hv, rfl⟩
    exact ⟨v.isLt, by rwa [BitVec.ofNat_toNat, BitVec.setWidth_eq]⟩

/-- Rule R66's count: under every admissible table 13 byte values are instructions. -/
theorem length_filter_decodeOpcode_isSome {t : Opcodes} (ht : t.admissible = true) :
    ((List.range 256).filter fun k => (decodeOpcode t (BitVec.ofNat 8 k)).isSome).length = 13 :=
  (filter_decodeOpcode_isSome_perm ht).length_eq

/-- Rule R66's count: the other 243 are illegal. -/
theorem length_filter_decodeOpcode_isNone {t : Opcodes} (ht : t.admissible = true) :
    ((List.range 256).filter fun k => (decodeOpcode t (BitVec.ofNat 8 k)).isNone).length = 243 := by
  have hsplit := List.length_eq_length_filter_add (l := List.range 256)
    fun k => (decodeOpcode t (BitVec.ofNat 8 k)).isSome
  rw [List.length_range, length_filter_decodeOpcode_isSome ht] at hsplit
  simp only [Option.not_isSome] at hsplit
  omega

/-! ## The default table -/

/-- Settles O1: the table is written out, its top bits are those of an admissible table, and each word is decoded by
computation. -/
theorem defaultOpcodeBytesDecode : Obligations.DefaultOpcodeBytesDecode :=
  ⟨rfl, fun m _ => Opcodes.topBits_byte (by decide) m,
    rfl, rfl, rfl, rfl, rfl, rfl, rfl, rfl, rfl, rfl, rfl, rfl, rfl, rfl, rfl⟩

namespace Machine

/-! ## The step that fetches an illegal opcode -/

/-- Where no pre-fetch byte faults on its own, the fetch is the decoder's answer on the bytes at `pc`. -/
theorem fetch_eq_decode {s : State} {op : Byte} (hp : s.prefetchOk) (hop : s.memByte? s.pc = some op) :
    fetch s = (decode s.cfg.opcodes op (s.memByte? (s.pc + 1)) (s.memByte? (s.pc + 2))).mapError
      (decodeFault s.pc) := by
  have hb1 : ¬(s.cfg.prefetchOobFaults = true ∧ 255 < s.pc + 1) := fun h => by have := hp h.1; omega
  have hb2 : ¬(s.cfg.prefetchOobFaults = true ∧ 255 < s.pc + 2) := fun h => by have := hp h.1; omega
  simp only [fetch, hop, Bool.and_eq_true, Option.isNone_iff_eq_none, State.memByte?_eq_none, if_neg hb1, if_neg hb2]
  cases decode s.cfg.opcodes op (s.memByte? (s.pc + 1)) (s.memByte? (s.pc + 2)) <;> rfl

/-- A step that fetches an illegal opcode raises `InvalidOpcode` with it, whatever bytes follow (rules R64, R66). -/
theorem step_of_illegal_opcode {s : State} {op : Byte} (hs : s.ready) (hp : s.prefetchOk)
    (hop : s.memByte? s.pc = some op) (hd : decodeOpcode s.cfg.opcodes op = none) :
    step s = .next (s.trap .invalidOpcode op.toNat) := by
  have hf : fetch s = .error (.invalidOpcode, op.toNat) := by
    rw [fetch_eq_decode hp hop, decode_of_none hd]
    rfl
  exact step_of_fetch_error hs.1 hs.2 hf

/-- Settles O5: the two answers of the whole-byte comparison, and the step that fetches an illegal opcode. -/
theorem decodingMatchesTheWholeByte : Obligations.DecodingMatchesTheWholeByte :=
  ⟨fun _ _ _ ht => decodeOpcode_eq_some_iff ht, fun _ _ => decodeOpcode_eq_none_iff,
    fun _ _ hs hp hop hne => step_of_illegal_opcode hs hp hop (decodeOpcode_eq_none_iff.mpr hne)⟩

/-- Settles O6: the two counts, and the step that fetches an illegal opcode. -/
theorem illegalOpcodesRaiseInvalidOpcode : Obligations.IllegalOpcodesRaiseInvalidOpcode :=
  ⟨fun _ ht => ⟨length_filter_decodeOpcode_isSome ht, length_filter_decodeOpcode_isNone ht⟩,
    fun _ _ hs hp hop hd => step_of_illegal_opcode hs hp hop hd, by decide⟩

end Machine

end Sys2Proof
end

section
/-! Register operands out of range (rule R67). -/

namespace Sys2Proof.Machine

/-- Operand 1 is checked before anything else an instruction does. -/
theorem exec_registerIndex_first {i : Instr} {n : Byte} (hi : (registerOperands i)[0]? = some n) (hn : 8 ≤ n.toNat)
    (s : State) : exec i s = .next (s.trap (.outOfBounds .registerIndex) n.toNat) := by
  cases i with
  | hlt | ret => cases hi
  | _ =>
    obtain rfl := Option.some.inj hi
    exact withReg_trap hn s _

/-- The check of two register operands, where operand 1 passes and operand 2 does not. -/
theorem withRegs_trap_second {a b : Byte} (ha : a.toNat < 8) (hb : 8 ≤ b.toNat) (s : State)
    (k : Fin 8 → Fin 8 → Host.Outcome State Fault Refusal) :
    withRegs a b s k = .next (s.trap (.outOfBounds .registerIndex) b.toNat) :=
  (withReg_reg (r := ⟨a.toNat, ha⟩) rfl s _).trans (withReg_trap hb s _)

/-- Operand 2 is checked next, before anything is written. -/
theorem exec_registerIndex_second {i : Instr} {a b : Byte} (hi : registerOperands i = [a, b]) (ha : a.toNat < 8)
    (hb : 8 ≤ b.toNat) (s : State) : exec i s = .next (s.trap (.outOfBounds .registerIndex) b.toNat) := by
  cases i with
  | mul | add | cmp =>
    cases hi
    exact withRegs_trap_second ha hb s _
  | _ => cases hi

/-- Settles O8: the instructions listed are those whose register operands are the ones the two checks name. -/
theorem registerIndexAboveSevenFaults : Obligations.RegisterIndexAboveSevenFaults := by
  refine ⟨fun n r => regOperand?_eq_some, fun s n imm hn i hi => ?_, fun s a b ha hb i hi => ?_⟩
  · have hfirst : (registerOperands i)[0]? = some n := by
      revert i
      simp [registerOperands]
    exact exec_registerIndex_first hfirst hn s
  · have hboth : registerOperands i = [a, b] := by
      revert i
      simp [registerOperands]
    exact exec_registerIndex_second hboth ha hb s

end Sys2Proof.Machine
end

section
/-! The execute loop: the fetch-stage faults (rules R82, R83), HLT (rule R86), and the next-PC sources (rule R84). -/

namespace Sys2Proof.Machine

/-! ## The fetch stage -/

/-- Under an admissible table the opcode byte at `pc` fixes the mnemonic of what is fetched. -/
theorem mnemonic_of_fetch_ok {s : State} {i : Instr} {m : Mnemonic} (ha : s.cfg.opcodes.admissible = true)
    (hop : s.mem.read s.pc = s.cfg.opcodes.byte m) (hi : fetch s = .ok i) : i.mnemonic = m := by
  obtain ⟨-, hd, -⟩ := fetch_ok hi
  obtain ⟨m', hm', rfl, -, -⟩ := decode_ok hd
  rw [hop, decodeOpcode_byte ha] at hm'
  rw [Mnemonic.mnemonic_withOperands, Option.some.inj hm']

/-- Every instruction has its fetch-stage faults: with a byte missing nothing is fetched, and what a fetch of a legal
opcode raises has info 256 whichever byte is missing. -/
theorem fetchStageFaults (m : Mnemonic) : FetchStageFaults m := by
  rintro s ⟨hr, ha⟩ hbyte hmissing
  obtain ⟨hpc, hop⟩ := State.memByte?_eq_some.mp hbyte
  cases hf : fetch s with
  | ok i =>
    have hwidth : s.pc + (1 + m.operandCount) ≤ 256 := mnemonic_of_fetch_ok ha hop hf ▸ fetch_width ha hf
    obtain ⟨-, -, hprefetch⟩ := fetch_ok hf
    obtain h | ⟨hp, h⟩ := hmissing
    · omega
    · exact absurd (hprefetch hp) (Nat.not_le.mpr h)
  | error f =>
    rw [step_of_fetch_error hr ha hf]
    obtain ⟨-, h⟩ | ⟨rfl, h⟩ | ⟨rfl, h⟩ | ⟨-, hnone, -⟩ := fetch_error hf
    · omega
    · rw [h]
    · rw [h]
    · rw [hop, decodeOpcode_byte ha] at hnone
      cases hnone

/-- Settles O9: HLT's encoding and its next state are as written, and its fetch-stage faults are every
instruction's. -/
theorem hltHalts : Obligations.HltHalts := ⟨fun _ => rfl, fun _ => rfl, fetchStageFaults .hlt⟩

/-! ## The next-PC sources

A completed instruction did not fault, so of each inversion lemma only the case that writes `pc` is left. -/

/-- The PC multiplexer stays the one write of `pc`: the ALU's answer goes elsewhere. -/
@[simp] theorem State.writeAlu_pc (s : State) (r : Fin 8) (o : AluOut) : (s.writeAlu r o).pc = s.pc := by
  unfold State.writeAlu
  repeat' split
  all_goals rfl

section
variable {s t : State}

/-- MUL, ADD and CMP select SEQ. -/
theorem aluInstr_pc {tag : AluTag} {a b : Byte} (h : aluInstr tag a b s = .next t) (hc : t.run.isFaulted = false) :
    t.pc = s.pc + 3 := by
  obtain ⟨ra, rb, o, -, -, -, rfl⟩ | ⟨k, -, rfl⟩ | ⟨-, rfl⟩ | ⟨-, -, rfl⟩ := aluInstr_next h
  · exact congrArg (· + 3) (s.writeAlu_pc ra o)
  all_goals cases hc

/-- JMP, JEQ and JNE select REG when taken and SEQ when not. -/
theorem jumpIf_pc {taken : Bool} {n : Byte} (h : jumpIf taken n s = .next t) (hc : t.run.isFaulted = false) :
    ∃ r : Fin 8, n.toNat = r.val ∧ t.pc = if taken then (s.reg r).toNat else s.pc + 2 := by
  obtain ⟨r, hr, rfl⟩ | ⟨-, rfl⟩ := jumpIf_next h
  · exact ⟨r, hr, by cases taken <;> rfl⟩
  · cases hc

end

/-- Settles O33: the step ran the fetched instruction, and of all that the instruction can do only its completion is
left. CALL's register is read after the decrement of SP, which is the register as CALL leaves it (rule R132). -/
theorem pcMultiplexerSources : Obligations.PcMultiplexerSources := by
  intro s t i hi hs hc
  obtain ⟨hr, ha, -⟩ := step_next hs
  have he : exec i s = .next t := (step_of_fetch_ok hr ha hi).symm.trans hs
  cases i with
  | hlt => cases he; rfl
  | ldi n imm =>
    obtain ⟨r, -, rfl⟩ | ⟨-, rfl⟩ := execLdi_next he
    · rfl
    · cases hc
  | prn n =>
    obtain ⟨r, -, rfl⟩ | ⟨-, rfl⟩ := execPrn_next he
    · rfl
    · cases hc
  | mul a b => exact aluInstr_pc (tag := .mul) he hc
  | add a b => exact aluInstr_pc (tag := .add) he hc
  | cmp a b => exact aluInstr_pc (tag := .cmp) he hc
  | push n =>
    obtain ⟨r, -, -, rfl⟩ | ⟨-, -, rfl⟩ | ⟨-, rfl⟩ := execPush_next he
    · rfl
    all_goals cases hc
  | pop n =>
    obtain ⟨r, -, -, rfl⟩ | ⟨r, -, -, rfl⟩ | ⟨-, rfl⟩ := execPop_next he
    · rfl
    all_goals cases hc
  | call n =>
    obtain ⟨r, hr, -, -, rfl⟩ | ⟨-, -, rfl⟩ | ⟨-, -, -, rfl⟩ | ⟨-, rfl⟩ := execCall_next he
    · exact ⟨r, hr, rfl⟩
    all_goals cases hc
  | ret =>
    obtain ⟨-, rfl⟩ | ⟨-, rfl⟩ := execRet_next he
    · rfl
    · cases hc
  | jmp n => exact jumpIf_pc (taken := true) he hc
  | jeq n => exact jumpIf_pc he hc
  | jne n => simpa [equalSet] using jumpIf_pc he hc

end Sys2Proof.Machine
end

section
/-! Register load and output: LDI (rules R68, R100) and PRN (rule R101). -/

namespace Sys2Proof.Machine

/-- Rule R100 with an operand that selects register `r`: the whole immediate byte is what the register then holds. -/
theorem exec_ldi_of_reg {n : Byte} {r : Fin 8} (hr : n.toNat = r.val) (s : State) (imm : Byte) :
    exec (.ldi n imm) s = .next { s with x := s.x.set r imm, pc := s.pc + 3 } :=
  withReg_reg hr s _

/-- Rule R101 with an operand that selects register `r`: the register's value is emitted as a number. -/
theorem exec_prn_of_reg {n : Byte} {r : Fin 8} (hr : n.toNat = r.val) (s : State) :
    exec (.prn n) s = .next { s with out := s.out ++ [(s.reg r).toNat], pc := s.pc + 2 } :=
  withReg_reg hr s _

/-- Settles O10: LDI's completion, the check of its one register operand, and every instruction's fetch-stage
faults. -/
theorem ldiLoadsItsImmediate : Obligations.LdiLoadsItsImmediate :=
  ⟨fun _ _ _ => rfl, fun s _ imm _ hr => exec_ldi_of_reg hr s imm,
    fun s _ _ hn => exec_registerIndex_first rfl hn s, fetchStageFaults .ldi⟩

/-- Settles O11: PRN's completion, the check of its one register operand, and every instruction's fetch-stage
faults. -/
theorem prnEmitsARegister : Obligations.PrnEmitsARegister :=
  ⟨fun _ _ => rfl, fun s _ _ hr => exec_prn_of_reg hr s,
    fun s _ hn => exec_registerIndex_first rfl hn s, fetchStageFaults .prn⟩

end Sys2Proof.Machine
end

section
/-! The ALU: its results (rule R111), and the instructions that ask it: ADD (rule R112), MUL (rule R113) and CMP
(rules R114, R115). Their operand checks and fetch-stage faults are every instruction's. -/

namespace Sys2Proof.Machine

/-! ## The ALU's results -/

/-- SUB answers the non-negative remainder: the difference modulo 256 is a byte, so `lowByte` cuts nothing off. -/
theorem toNat_aluSub (va vb : Byte) : ((aluSub va vb).toNat : Int) = ((va.toNat : Int) - vb.toNat) % 256 := by
  simp only [aluSub, lowByte, BitVec.toNat_ofNat]
  omega

/-- The test of rule R111 for EQUAL, on the bytes themselves. -/
theorem compareFlags_eq_ite (va vb : Byte) :
    compareFlags va vb = if va = vb then flagEqual else if vb.toNat < va.toNat then flagGreater else flagLess := by
  simp only [compareFlags, BitVec.toNat_inj, gt_iff_lt]

/-- Settles O23: SUB by its remainder, MUL's bound by the largest exact product, CMP by its test on bytes; the sum and
the product are rule R111's as they stand. -/
theorem aluResults : Obligations.AluResults := fun va vb =>
  ⟨rfl, ⟨aluSub va vb, rfl, toNat_aluSub va vb⟩, rfl, aluProduct_le va vb,
    congrArg (fun f => Except.ok { flags := some f : AluOut }) (compareFlags_eq_ite va vb)⟩

/-! ## MUL, ADD and CMP

With operands that select registers, each completes by writing what the ALU answers to the two values read. -/

/-- What an answer with a byte and an exact product writes: the byte in any case, the product as `MUL_EMITS_OUTPUT`
says. -/
theorem State.writeAlu_product (s : State) (r : Fin 8) (v : Byte) (p : Nat) :
    s.writeAlu r { result := some v, product := some p } =
      { s with x := s.x.set r v, out := if s.cfg.mulEmitsOutput then s.out ++ [p] else s.out } := by
  cases h : s.cfg.mulEmitsOutput <;> simp [State.writeAlu, State.setReg, State.emit, h]

section
variable {a b : Byte} {ra rb : Fin 8} (ha : a.toNat = ra.val) (hb : b.toNat = rb.val) (s : State)
include ha hb

theorem exec_mul_of_regs :
    exec (.mul a b) s = .next { s with
      x := s.x.set ra (lowByte (aluProduct (s.reg ra) (s.reg rb))),
      out := if s.cfg.mulEmitsOutput then s.out ++ [aluProduct (s.reg ra) (s.reg rb)] else s.out,
      pc := s.pc + 3 } := by
  have h : exec (.mul a b) s = _ := aluInstr_regs (tag := .mul) ha hb s rfl
  rw [h, State.writeAlu_product]
  rfl

theorem exec_add_of_regs :
    exec (.add a b) s = .next { s with x := s.x.set ra (aluAdd (s.reg ra) (s.reg rb)), pc := s.pc + 3 } :=
  aluInstr_regs (tag := .add) ha hb s rfl

theorem exec_cmp_of_regs :
    exec (.cmp a b) s = .next { s with fl := compareFlags (s.reg ra) (s.reg rb), pc := s.pc + 3 } :=
  aluInstr_regs (tag := .cmp) ha hb s rfl

end

/-- Settles O12: MUL's completion for both settings of `MUL_EMITS_OUTPUT`, the checks of its two register operands in
their order, and every instruction's fetch-stage faults. -/
theorem mulStoresAndEmitsTheProduct : Obligations.MulStoresAndEmitsTheProduct :=
  ⟨fun _ _ _ => rfl, fun s _ _ _ _ ha hb => exec_mul_of_regs ha hb s,
    fun s _ _ ha => exec_registerIndex_first rfl ha s, fun s _ _ ha hb => exec_registerIndex_second rfl ha hb s,
    fetchStageFaults .mul⟩

/-- Settles O13: ADD's completion, the checks of its two register operands in their order, and every instruction's
fetch-stage faults. -/
theorem addStoresTheSum : Obligations.AddStoresTheSum :=
  ⟨fun _ _ _ => rfl, fun s _ _ _ _ ha hb => exec_add_of_regs ha hb s,
    fun s _ _ ha => exec_registerIndex_first rfl ha s, fun s _ _ ha hb => exec_registerIndex_second rfl ha hb s,
    fetchStageFaults .add⟩

/-- Settles O14: CMP's completion, the checks of its two register operands in their order, and every instruction's
fetch-stage faults. -/
theorem cmpWritesTheComparison : Obligations.CmpWritesTheComparison :=
  ⟨fun _ _ _ => rfl, fun s _ _ _ _ ha hb => exec_cmp_of_regs ha hb s,
    fun s _ _ ha => exec_registerIndex_first rfl ha s, fun s _ _ ha hb => exec_registerIndex_second rfl ha hb s,
    fetchStageFaults .cmp⟩

/-! ## The flags after CMP (rule R115)

Each of the three patterns is a power of two, so it has one bit set: the one whose relation holds. -/

theorem getLsbD_twoPow_of_lt {w i : Nat} (h : i < w) (k : Nat) :
    (BitVec.twoPow w i).getLsbD k = decide (i = k) := by
  simp only [BitVec.getLsbD_twoPow, h, decide_true, Bool.true_and]

/-- An unsigned comparison has three exclusive outcomes, and sets bit 0, 1 or 2 alone. -/
theorem compareFlags_cases (va vb : Byte) :
    (va.toNat = vb.toNat ∧ compareFlags va vb = BitVec.twoPow 8 0) ∨
      (vb.toNat < va.toNat ∧ compareFlags va vb = BitVec.twoPow 8 1) ∨
      (va.toNat < vb.toNat ∧ compareFlags va vb = BitVec.twoPow 8 2) := by
  unfold compareFlags
  split
  · next heq => exact .inl ⟨heq, rfl⟩
  · next hne =>
    split
    · next hgt => exact .inr (.inl ⟨hgt, rfl⟩)
    · next hle => exact .inr (.inr ⟨by omega, rfl⟩)

/-- Settles O15: CMP completes with the comparison's flags, which are one power of two in each of the three
outcomes. -/
theorem cmpSetsExactlyOneFlagBit : Obligations.CmpSetsExactlyOneFlagBit := by
  intro s t a b ra rb ha hb he
  rw [exec_cmp_of_regs ha hb] at he
  injection he with he
  subst he
  obtain ⟨h, hfl⟩ | ⟨h, hfl⟩ | ⟨h, hfl⟩ := compareFlags_cases (s.reg ra) (s.reg rb)
  all_goals
    simp only [hfl, getLsbD_twoPow_of_lt, Nat.reduceLT, decide_eq_true_eq, decide_eq_false_iff_not, Nat.reduceEqDiff,
      true_iff, false_iff]
    exact ⟨by decide, by omega, by omega, by omega, fun k hk => by omega⟩

end Sys2Proof.Machine
end

section
/-! The stack: PUSH (rule R130), POP (rule R131), CALL (rule R132) and RET (rule R133). Their check of a register
operand and their fetch-stage faults are every instruction's. -/

namespace Sys2Proof.Machine

/-! ## The shared push (rule R134)

PUSH and CALL both decrement SP and write a byte at the new SP. The check that SP is not 0 is what keeps the
decrement from wrapping, so the byte goes to `SP - 1` as a number. -/

/-- The memory after a push: the byte pushed at `SP - 1`, every other byte as before. -/
theorem State.read_decSp_storeTop {s : State} (h0 : s.sp ≠ 0) (v : Byte) (a : Nat) :
    (s.decSp.storeTop v).mem.read a = if a = s.sp.toNat - 1 then v else s.mem.read a := by
  have hslot : (s.sp - 1).toNat = s.sp.toNat - 1 := by bv_omega
  simp only [State.storeTop_mem, State.decSp_mem, State.sp_decSp, Memory.read_write, hslot, eq_comm]

/-- What a push of `v` leaves, whichever instruction pushes and wherever it goes on. -/
theorem State.push_frame {s u : State} {v : Byte} {sel : PcSelect} (h0 : s.sp ≠ 0)
    (hu : u = (s.decSp.storeTop v).selectPc sel) :
    u.sp.toNat + 1 = s.sp.toNat ∧ u.mem.read (s.sp.toNat - 1) = v ∧
      (∀ a, a ≠ s.sp.toNat - 1 → u.mem.read a = s.mem.read a) ∧
      (∀ q : Fin 8, q ≠ 7 → u.reg q = s.reg q) ∧
      u.fl = s.fl ∧ u.out = s.out ∧ u.run = s.run ∧ u.cfg = s.cfg := by
  subst hu
  have hsp : (s.sp - 1).toNat + 1 = s.sp.toNat := by bv_omega
  refine ⟨?_, ?_, fun a ha => ?_, fun q hq => ?_, rfl, rfl, rfl, rfl⟩
  · exact s.sp_decSp ▸ hsp
  · exact (State.read_decSp_storeTop h0 v _).trans (if_pos rfl)
  · exact (State.read_decSp_storeTop h0 v a).trans (if_neg ha)
  · exact (s.reg_decSp q).trans (if_neg hq)

/-! ## PUSH -/

/-- Rule R130 with an operand that selects register `r`. -/
theorem exec_push_of_reg {n : Byte} {r : Fin 8} (hr : n.toNat = r.val) (s : State) :
    exec (.push n) s =
      if s.sp = 0 then .next (s.trap (.outOfBounds .stackOverflow) 0) else .next (pushed s r) :=
  withReg_reg hr s _

/-- Settles O16: PUSH's completion is a push of its register as the decrement left it; then its two checks in their
order, and every instruction's fetch-stage faults. -/
theorem pushStoresARegister : Obligations.PushStoresARegister := by
  refine ⟨fun _ _ => rfl, fun s n r hr h0 => ?_, fun s n hn => exec_registerIndex_first rfl hn s,
    fun s n hn h0 => (exec_push_of_reg (r := ⟨n.toNat, hn⟩) rfl s).trans (if_pos h0), fetchStageFaults .push⟩
  obtain ⟨hsp, hslot, hframe⟩ := State.push_frame h0 (rfl : pushed s r = _)
  exact ⟨pushed s r, (exec_push_of_reg hr s).trans (if_neg h0), rfl, hsp, hslot.trans (s.reg_decSp r), hframe⟩

/-! ## POP

The SP that is incremented is the popped byte for POP R7 and SP itself for the others, and that one value is
checked. -/

theorem spAfterLoad_of_ne {r : Fin 8} (hr : r ≠ spIndex) (s : State) : spAfterLoad s r = s.sp := if_neg hr

/-- In POP R7 the write of the incremented SP covers the load. -/
theorem State.setSp_setReg_spIndex (s : State) (v w : Byte) : (s.setReg spIndex v).setSp w = s.setSp w :=
  congrArg (fun x => { s with x := x }) (Vector.set_set v spIndex.isLt)

/-- The bound check of rule R134, as the room below 255 that is left. -/
theorem fitsAfterIncrement_iff {v : Byte} : fitsAfterIncrement v = true ↔ v.toNat < 255 := by
  simp only [fitsAfterIncrement, decide_eq_true_eq]
  omega

section
variable {n : Byte} {r : Fin 8} (hr : n.toNat = r.val) {s : State}
include hr

/-- Rule R131 where the incremented SP fits a byte. -/
theorem exec_pop_of_fits (hv : (spAfterLoad s r).toNat < 255) :
    exec (.pop n) s = .next (((s.setReg r s.top).setSp (spAfterLoad s r + 1)).selectPc (.seq 2)) :=
  (withReg_reg hr s _).trans (if_pos (fitsAfterIncrement_iff.mpr hv))

/-- Rule R131 where the incremented SP would be 256. -/
theorem exec_pop_underflow (hv : (spAfterLoad s r).toNat = 255) :
    exec (.pop n) s = .next (s.trap (.outOfBounds .stackUnderflow) 256) :=
  (withReg_reg hr s _).trans (if_neg fun hf => by have := fitsAfterIncrement_iff.mp hf; omega)

end

/-- Settles O17: R7 and the other registers each have their own value that POP increments and checks; then the operand
check and every instruction's fetch-stage faults. -/
theorem popLoadsARegister : Obligations.PopLoadsARegister := by
  refine ⟨fun _ _ => rfl, fun s n r hr hne hsp => ?_, fun s n hn hv => ?_,
    fun s n hn => exec_registerIndex_first rfl hn s, fun s n hn hsp => ?_, fun s n hn hv => ?_, fetchStageFaults .pop⟩
  · have hload := spAfterLoad_of_ne hne s
    rw [exec_pop_of_fits hr (hload ▸ hsp), hload]
    rfl
  · rw [exec_pop_of_fits (r := spIndex) hn hv, State.setSp_setReg_spIndex]
    rfl
  · have hne : (⟨n.toNat, by omega⟩ : Fin 8) ≠ spIndex := Fin.ne_of_lt hn
    exact exec_pop_underflow (r := ⟨n.toNat, by omega⟩) rfl (spAfterLoad_of_ne hne s ▸ hsp)
  · exact exec_pop_underflow (r := spIndex) hn hv

/-! ## CALL -/

/-- The state of a complete CALL of register `r`. -/
def called (s : State) (r : Fin 8) : State :=
  (s.decSp.storeTop (BitVec.ofNat 8 (s.pc + 2))).selectPc (.reg (s.decSp.reg r))

/-- Rule R132 with an operand that selects register `r`: the stack is checked before the return address. -/
theorem exec_call_of_reg {n : Byte} {r : Fin 8} (hr : n.toNat = r.val) (s : State) :
    exec (.call n) s =
      if s.sp = 0 then .next (s.trap (.outOfBounds .stackOverflow) 0)
      else if 255 < s.pc + 2 then .next (s.trap (.outOfBounds .returnAddress) (s.pc + 2))
      else .next (called s r) :=
  withReg_reg hr s _

/-- Settles O18: CALL's completion is a push of the return address, which the check keeps within a byte, with `pc`
taken from the register as the decrement left it; then its three checks in their order, and every instruction's
fetch-stage faults. -/
theorem callPushesTheReturnAddress : Obligations.CallPushesTheReturnAddress := by
  refine ⟨fun _ _ => rfl, fun s n r hr h0 hpc => ?_, fun s n hn => exec_registerIndex_first rfl hn s,
    fun s n hn h0 => ?_, fun s n hn h0 hpc => ?_, fetchStageFaults .call⟩
  · obtain ⟨hsp, hslot, hframe⟩ := State.push_frame h0 (rfl : called s r = _)
    have hret : (BitVec.ofNat 8 (s.pc + 2)).toNat = s.pc + 2 := by
      rw [BitVec.toNat_ofNat]
      omega
    refine ⟨called s r, ?_, congrArg BitVec.toNat (s.reg_decSp r), hsp, hslot ▸ hret, hframe⟩
    rw [exec_call_of_reg hr, if_neg h0, if_neg (by omega)]
  · rw [exec_call_of_reg (r := ⟨n.toNat, hn⟩) rfl, if_pos h0]
  · rw [exec_call_of_reg (r := ⟨n.toNat, hn⟩) rfl, if_neg h0, if_pos hpc]

/-! ## RET -/

/-- Settles O19: RET's one check splits its completion from its fault; then every instruction's fetch-stage
faults. -/
theorem retPopsThePc : Obligations.RetPopsThePc :=
  ⟨fun _ => rfl, fun _ hsp => if_pos (fitsAfterIncrement_iff.mpr hsp),
    fun _ hsp => if_neg fun hf => by have := fitsAfterIncrement_iff.mp hf; omega, fetchStageFaults .ret⟩

end Sys2Proof.Machine
end

section
/-! The jumps: JMP (rule R150), JEQ (rule R151) and JNE (rule R152). Their check of a register operand and their
fetch-stage faults are every instruction's. -/

namespace Sys2Proof.Machine

section
variable {n : Byte} {r : Fin 8} (hr : n.toNat = r.val) (s : State)
include hr

/-- The shared form of the jumps with an operand that selects register `r`: it writes `pc` and nothing else. -/
theorem jumpIf_of_reg (taken : Bool) :
    jumpIf taken n s = .next { s with pc := if taken then (s.reg r).toNat else s.pc + 2 } := by
  have hsel : jumpIf taken n s = .next (s.selectPc (if taken then .reg (s.reg r) else .seq 2)) := withReg_reg hr s _
  rw [hsel]
  cases taken <;> rfl

/-- Rule R150 with an operand that selects register `r`. -/
theorem exec_jmp_of_reg : exec (.jmp n) s = .next { s with pc := (s.reg r).toNat } :=
  jumpIf_of_reg hr s true

/-- Rule R151 with an operand that selects register `r`. -/
theorem exec_jeq_of_reg :
    exec (.jeq n) s = .next { s with pc := if s.fl.getLsbD 0 = true then (s.reg r).toNat else s.pc + 2 } :=
  jumpIf_of_reg hr s (equalSet s.fl)

/-- Rule R152 with an operand that selects register `r`. -/
theorem exec_jne_of_reg :
    exec (.jne n) s = .next { s with pc := if s.fl.getLsbD 0 = false then (s.reg r).toNat else s.pc + 2 } := by
  have h : exec (.jne n) s = _ := jumpIf_of_reg hr s (!equalSet s.fl)
  simpa only [equalSet, Bool.not_eq_true'] using h

/-- Of JEQ and JNE, asked in one state, exactly one goes to the register: bit 0 of `fl` is either 1 or 0. -/
theorem jeq_jne_exactly_one_taken {t u : State} (ht : exec (.jeq n) s = .next t) (hu : exec (.jne n) s = .next u) :
    (t.pc = (s.reg r).toNat ∧ u.pc = s.pc + 2) ∨ (t.pc = s.pc + 2 ∧ u.pc = (s.reg r).toNat) := by
  obtain rfl := Host.Outcome.next.inj ((exec_jeq_of_reg hr s).symm.trans ht)
  obtain rfl := Host.Outcome.next.inj ((exec_jne_of_reg hr s).symm.trans hu)
  cases s.fl.getLsbD 0 with
  | true => exact .inl ⟨rfl, rfl⟩
  | false => exact .inr ⟨rfl, rfl⟩

end

/-- Settles O20: JMP's completion, the check of its one register operand, and every instruction's fetch-stage
faults. -/
theorem jmpJumps : Obligations.JmpJumps :=
  ⟨fun _ _ => rfl, fun s _ _ hr => exec_jmp_of_reg hr s,
    fun s _ hn => exec_registerIndex_first rfl hn s, fetchStageFaults .jmp⟩

/-- Settles O21: JEQ's completion, taken or not, the check of its one register operand, and every instruction's
fetch-stage faults. -/
theorem jeqJumpsWhenEqual : Obligations.JeqJumpsWhenEqual :=
  ⟨fun _ _ => rfl, fun s _ _ hr => exec_jeq_of_reg hr s,
    fun s _ hn => exec_registerIndex_first rfl hn s, fetchStageFaults .jeq⟩

/-- Settles O22: JNE's completion, taken or not, the check of its one register operand, its complement with JEQ, and
every instruction's fetch-stage faults. -/
theorem jneJumpsWhenNotEqual : Obligations.JneJumpsWhenNotEqual :=
  ⟨fun _ _ => rfl, fun s _ _ hr => exec_jne_of_reg hr s, fun s _ hn => exec_registerIndex_first rfl hn s,
    fun s _ _ _ _ hr ht hu => jeq_jne_exactly_one_taken hr s ht hu, fetchStageFaults .jne⟩

end Sys2Proof.Machine
end

section
/-! Faults (rules R160, R162, R164) and the status port (rule R174): the order of the fetch stage, and one inversion
lemma for a faulting step. -/

namespace Sys2Proof.Machine

/-! ## The status port -/

/-- Settles O38: the port shows the run state, and its outcome is a function of the run state. -/
theorem statusPortOutcome : Obligations.StatusPortOutcome :=
  ⟨fun _ => rfl, fun _ h => congrArg RunState.result? h, fun _ _ h => congrArg RunState.result? h,
    fun _ h => congrArg RunState.result? h⟩

/-! ## The fetch stage, up to the decoder

These faults come before the opcode is looked at, so they need nothing of the byte at `pc` (rule R164, 1 and 2). -/

theorem fetch_of_pc_above {s : State} (h : 255 < s.pc) : fetch s = .error (.outOfBounds .fetch, s.pc) := by
  simp only [fetch, State.memByte?_eq_none.mpr h]

theorem fetch_of_prefetch {s : State} (hp : s.cfg.prefetchOobFaults = true) (hlow : 253 < s.pc)
    (hhigh : s.pc ≤ 255) : fetch s = .error (.outOfBounds .fetch, 256) := by
  have hop : s.memByte? s.pc = some (s.mem.read s.pc) := State.memByte?_eq_some.mpr ⟨hhigh, rfl⟩
  obtain hpc | hpc : s.pc = 255 ∨ s.pc = 254 := by omega
  · have hb1 : s.memByte? (s.pc + 1) = none := State.memByte?_eq_none.mpr (by omega)
    simpa [fetch, hop, hp, hb1] using hpc
  · have hb1 : s.memByte? (s.pc + 1) = some (s.mem.read (s.pc + 1)) := State.memByte?_eq_some.mpr ⟨by omega, rfl⟩
    have hb2 : s.memByte? (s.pc + 2) = none := State.memByte?_eq_none.mpr (by omega)
    simpa [fetch, hop, hp, hb1, hb2] using hpc

/-! ## The order of the faults -/

/-- Settles O32: the pre-fetch faults whatever the opcode, the illegal opcode whatever follows it, the missing operand
bytes; then each instruction's own checks in their order. -/
theorem faultsAreReportedInOrder : Obligations.FaultsAreReportedInOrder := by
  obtain ⟨-, -, -, hpush, -⟩ := pushStoresARegister
  obtain ⟨-, -, -, -, hpop, hpopSp, -⟩ := popLoadsARegister
  obtain ⟨-, -, -, hcall, hreturn, -⟩ := callPushesTheReturnAddress
  obtain ⟨-, -, hret, -⟩ := retPopsThePc
  refine ⟨fun s ⟨hr, ha⟩ hpc => ?_, fun s ⟨hr, ha⟩ hp hpc => ?_, fun s ⟨hr, ha⟩ hp hpc => ?_,
    fun s op hs hp hop hne => step_of_illegal_opcode hs hp hop (decodeOpcode_eq_none_iff.mpr hne),
    fun s m hs hp hop hm hpc => ?_, fun s m hs hp hop hm hpc => ?_,
    fun s i n hi hn => exec_registerIndex_first hi hn s, fun s i a b hi ha hb => exec_registerIndex_second hi ha hb s,
    fun s n hn h0 => ⟨hpush s n hn h0, hcall s n hn h0⟩, fun s n hn hsp => ?_, fun s hv => ?_,
    fun s n hn h0 hpc => ?_⟩
  · rw [step_of_fetch_error hr ha (fetch_of_pc_above (by omega)), hpc]
  · rw [step_of_fetch_error hr ha (fetch_of_prefetch hp (by omega) (by omega)), hpc]
  · rw [step_of_fetch_error hr ha (fetch_of_prefetch hp (by omega) (by omega)), hpc]
  · rw [fetchStageFaults m s hs hop (.inl (by omega)), hpc]
  · rw [fetchStageFaults m s hs hop (.inl (by omega)), hpc]
  · have hsp' : s.sp.toNat = 255 := congrArg BitVec.toNat hsp
    exact ⟨hpop s n hn hsp', hret s hsp'⟩
  · exact hpopSp s 7 rfl (congrArg BitVec.toNat hv)
  · rw [hreturn s n hn h0 (by omega), hpc]

/-! ## What the fetch stage can raise -/

/-- All that the decoder can reject, operand byte 1 before operand byte 2. -/
theorem decode_error {t : Opcodes} {op : Byte} {b1 b2 : Option Byte} {e : DecodeError}
    (h : decode t op b1 b2 = .error e) :
    (e = .invalidOpcode op ∧ decodeOpcode t op = none) ∨
      ∃ m, decodeOpcode t op = some m ∧
        ((e = .missingOperand 1 ∧ 1 ≤ topBits op ∧ b1 = none) ∨
          (e = .missingOperand 2 ∧ topBits op = 2 ∧ b1 ≠ none ∧ b2 = none)) := by
  unfold decode at h
  split at h
  · next hm => exact .inl ⟨(Except.error.inj h).symm, hm⟩
  · next m hm =>
    refine .inr ⟨m, hm, ?_⟩
    simp only [opcodeWidth, beq_iff_eq, Bool.and_eq_true, Option.isNone_iff_eq_none] at h
    split at h
    · next h1 =>
      have hcount := of_decide_eq_true h1.1
      exact .inl ⟨(Except.error.inj h).symm, by omega, h1.2⟩
    · next h1 =>
      split at h
      · next h2 =>
        have hb1 : b1 ≠ none := fun hb => h1 ⟨decide_eq_true (by omega), hb⟩
        exact .inr ⟨(Except.error.inj h).symm, by omega, hb1, h2.2⟩
      · cases h

/-- The causes rule R160 gives for `OutOfBounds(Fetch)`. -/
def FetchCause (s : State) : Prop :=
  s.pc = 256 ∨ (s.cfg.prefetchOobFaults = true ∧ 253 < s.pc) ∨
    ∃ m, s.memByte? s.pc = some (s.cfg.opcodes.byte m) ∧ 256 < s.pc + 1 + m.operandCount

/-- What a fetch stage that fails raises, and why: an illegal opcode, or a byte it needs at address 256. -/
theorem fetch_error_cause {s : State} {f : FaultKind × Nat} (ha : s.cfg.opcodes.admissible = true)
    (hpc : s.pc ≤ 256) (h : fetch s = .error f) :
    (∃ op, f = (.invalidOpcode, op.toNat) ∧ s.memByte? s.pc = some op ∧ ∀ m, op ≠ s.cfg.opcodes.byte m) ∨
      (f = (.outOfBounds .fetch, 256) ∧ FetchCause s) := by
  by_cases h256 : s.pc = 256
  · rw [fetch_of_pc_above (by omega), h256] at h
    exact .inr ⟨(Except.error.inj h).symm, .inl h256⟩
  by_cases hok : s.prefetchOk
  case neg =>
    obtain ⟨hp, hlow⟩ : s.cfg.prefetchOobFaults = true ∧ 253 < s.pc := by
      simpa only [State.prefetchOk, Classical.not_imp, Nat.not_le] using hok
    rw [fetch_of_prefetch hp hlow (by omega)] at h
    exact .inr ⟨(Except.error.inj h).symm, .inr (.inl ⟨hp, hlow⟩)⟩
  have hop : s.memByte? s.pc = some (s.mem.read s.pc) := State.memByte?_eq_some.mpr ⟨by omega, rfl⟩
  rw [fetch_eq_decode hok hop] at h
  cases hd : decode s.cfg.opcodes (s.mem.read s.pc) (s.memByte? (s.pc + 1)) (s.memByte? (s.pc + 2)) with
  | ok i => rw [hd] at h; cases h
  | error e =>
    rw [hd] at h
    obtain rfl : decodeFault s.pc e = f := Except.error.inj h
    obtain ⟨rfl, hnone⟩ | ⟨m, hm, hmissing⟩ := decode_error hd
    · exact .inl ⟨_, rfl, hop, decodeOpcode_eq_none_iff.mp hnone⟩
    · have hbyte := byte_of_decodeOpcode hm
      have hcount := Opcodes.topBits_byte ha m
      rw [hbyte] at hcount
      simp only [ne_eq, State.memByte?_eq_none] at hmissing
      have hcause (hwidth : 256 < s.pc + 1 + m.operandCount) : FetchCause s :=
        .inr (.inr ⟨m, hbyte ▸ hop, hwidth⟩)
      obtain ⟨rfl, h1, hb1⟩ | ⟨rfl, h2, hb1, hb2⟩ := hmissing
      · exact .inr ⟨congrArg (Prod.mk _) (by omega), hcause (by omega)⟩
      · exact .inr ⟨congrArg (Prod.mk _) (by omega), hcause (by omega)⟩

/-! ## What an instruction can raise -/

/-- The checks of rules R67 and R130 to R133: the instruction, run from `s`, finds the fault with the info. -/
inductive ExecRaises (s : State) : Instr → FaultKind → Nat → Prop
  | registerIndex {i : Instr} {n : Byte} (hmem : n ∈ registerOperands i) (hn : 8 ≤ n.toNat) :
      ExecRaises s i (.outOfBounds .registerIndex) n.toNat
  | pushOverflow {n : Byte} (h0 : s.sp = 0) : ExecRaises s (.push n) (.outOfBounds .stackOverflow) 0
  | callOverflow {n : Byte} (h0 : s.sp = 0) : ExecRaises s (.call n) (.outOfBounds .stackOverflow) 0
  | popUnderflow {n : Byte} {r : Fin 8} (hr : n.toNat = r.val) (hv : (spAfterLoad s r).toNat = 255) :
      ExecRaises s (.pop n) (.outOfBounds .stackUnderflow) 256
  | retUnderflow (hsp : s.sp.toNat = 255) : ExecRaises s .ret (.outOfBounds .stackUnderflow) 256
  | returnAddress {n : Byte} (hpc : 255 < s.pc + 2) :
      ExecRaises s (.call n) (.outOfBounds .returnAddress) (s.pc + 2)

/-- What an instruction, run from `s`, does to `run`: it keeps it, HLT halts, or a check fails and nothing but `run` is
written. -/
def RunOutcome (i : Instr) (s t : State) : Prop :=
  t.run = s.run ∨ t.run = .halted ∨ ∃ kind info, ExecRaises s i kind info ∧ t = s.trap kind info

section
variable {i : Instr} {s t : State}

theorem ExecRaises.runOutcome {kind : FaultKind} {info : Nat} (h : ExecRaises s i kind info) :
    RunOutcome i s (s.trap kind info) := .inr (.inr ⟨kind, info, h, rfl⟩)

/-- Operand 1 of an instruction with one register operand, or the first of two. -/
theorem runOutcome_of_operand_first {n : Byte} {l : List Byte} (hi : registerOperands i = n :: l) (hn : 8 ≤ n.toNat) :
    RunOutcome i s (s.trap (.outOfBounds .registerIndex) n.toNat) :=
  (ExecRaises.registerIndex (hi ▸ List.mem_cons_self) hn).runOutcome

theorem runOutcome_of_operand_second {a b : Byte} (hi : registerOperands i = [a, b]) (hb : 8 ≤ b.toNat) :
    RunOutcome i s (s.trap (.outOfBounds .registerIndex) b.toNat) :=
  (ExecRaises.registerIndex (hi ▸ List.mem_cons_of_mem a List.mem_cons_self) hb).runOutcome

theorem State.writeAlu_run (s : State) (r : Fin 8) (o : AluOut) : (s.writeAlu r o).run = s.run := by
  unfold State.writeAlu
  repeat' split
  all_goals rfl

/-- MUL, ADD and CMP: the ALU supports their tags, so only an operand check can fail. -/
theorem aluInstr_runOutcome {tag : AluTag} {a b : Byte} (htag : ∀ k, tag ≠ .other k)
    (hi : registerOperands i = [a, b]) (h : aluInstr tag a b s = .next t) : RunOutcome i s t := by
  obtain ⟨ra, rb, o, -, -, -, rfl⟩ | ⟨k, hk, -⟩ | ⟨ha, rfl⟩ | ⟨-, hb, rfl⟩ := aluInstr_next h
  · exact .inl (s.writeAlu_run ra o)
  · exact absurd hk (htag k)
  · exact runOutcome_of_operand_first hi ha
  · exact runOutcome_of_operand_second hi hb

/-- JMP, JEQ and JNE: taken or not, only the operand check can fail. -/
theorem jumpIf_runOutcome {taken : Bool} {n : Byte} (hi : registerOperands i = [n])
    (h : jumpIf taken n s = .next t) : RunOutcome i s t := by
  obtain ⟨r, -, rfl⟩ | ⟨hn, rfl⟩ := jumpIf_next h
  · exact .inl rfl
  · exact runOutcome_of_operand_first hi hn

/-- All that an instruction can do to `run`, from what each instruction can do. -/
theorem exec_runOutcome (he : exec i s = .next t) : RunOutcome i s t := by
  cases i with
  | hlt => cases he; exact .inr (.inl rfl)
  | ldi n imm =>
    obtain ⟨r, -, rfl⟩ | ⟨hn, rfl⟩ := execLdi_next he
    · exact .inl rfl
    · exact runOutcome_of_operand_first rfl hn
  | prn n =>
    obtain ⟨r, -, rfl⟩ | ⟨hn, rfl⟩ := execPrn_next he
    · exact .inl rfl
    · exact runOutcome_of_operand_first rfl hn
  | mul a b => exact aluInstr_runOutcome (tag := .mul) nofun rfl he
  | add a b => exact aluInstr_runOutcome (tag := .add) nofun rfl he
  | cmp a b => exact aluInstr_runOutcome (tag := .cmp) nofun rfl he
  | push n =>
    obtain ⟨r, -, -, rfl⟩ | ⟨h0, -, rfl⟩ | ⟨hn, rfl⟩ := execPush_next he
    · exact .inl rfl
    · exact (ExecRaises.pushOverflow h0).runOutcome
    · exact runOutcome_of_operand_first rfl hn
  | pop n =>
    obtain ⟨r, -, -, rfl⟩ | ⟨r, hr, hv, rfl⟩ | ⟨hn, rfl⟩ := execPop_next he
    · exact .inl rfl
    · exact (ExecRaises.popUnderflow hr (by omega)).runOutcome
    · exact runOutcome_of_operand_first rfl hn
  | call n =>
    obtain ⟨r, -, -, -, rfl⟩ | ⟨h0, -, rfl⟩ | ⟨hpc, -, -, rfl⟩ | ⟨hn, rfl⟩ := execCall_next he
    · exact .inl rfl
    · exact (ExecRaises.callOverflow h0).runOutcome
    · exact (ExecRaises.returnAddress hpc).runOutcome
    · exact runOutcome_of_operand_first rfl hn
  | ret =>
    obtain ⟨-, rfl⟩ | ⟨hsp, rfl⟩ := execRet_next he
    · exact .inl rfl
    · exact (ExecRaises.retUnderflow (by omega)).runOutcome
  | jmp n => exact jumpIf_runOutcome (taken := true) rfl he
  | jeq n => exact jumpIf_runOutcome rfl he
  | jne n => exact jumpIf_runOutcome rfl he

end

/-! ## What a step can raise -/

/-- All that a step that ends Faulted can have done: a check of the fetch stage or of the fetched instruction failed,
and the step wrote the record of it. -/
theorem step_faulted {s t : State} {r : FaultRecord} (hs : step s = .next t) (hf : t.run = .faulted r) :
    s.cfg.opcodes.admissible = true ∧ ∃ kind info, r = ⟨kind, info, s.pc⟩ ∧ t = s.trap kind info ∧
      ((∃ i, fetch s = .ok i ∧ ExecRaises s i kind info) ∨ fetch s = .error (kind, info)) := by
  obtain ⟨hrun, ha, ⟨i, hi, he⟩ | ⟨f, hfetch, rfl⟩⟩ := step_next hs
  · obtain h | h | ⟨kind, info, hraises, rfl⟩ := exec_runOutcome he
    · rw [hf, hrun] at h
      cases h
    · rw [hf] at h
      cases h
    · exact ⟨ha, kind, info, (RunState.faulted.inj hf).symm, rfl, .inl ⟨i, hi, hraises⟩⟩
  · exact ⟨ha, f.1, f.2, (RunState.faulted.inj hf).symm, rfl, .inr hfetch⟩

/-- Settles O36: every faulting step is one write of `run`, whatever raised the fault. -/
theorem faultsWriteOnlyTheRunState : Obligations.FaultsWriteOnlyTheRunState := by
  intro s t r hs hf
  obtain ⟨-, kind, info, rfl, rfl, -⟩ := step_faulted hs hf
  exact ⟨rfl, rfl⟩

theorem State.pc_le_of_wf {s : State} (h : s.wf = true) : s.pc ≤ 256 := by
  simp only [State.wf, Bool.and_eq_true, decide_eq_true_eq] at h
  obtain ⟨⟨⟨hpc, -⟩, -⟩, -⟩ := h
  exact hpc

/-- Settles O37: a fault comes from one of the instruction checks or from the fetch stage, and each has its cause. The
return address is 256 because a fetched CALL lies within memory. -/
theorem faultCausesAndCodes : Obligations.FaultCausesAndCodes := by
  refine ⟨fun s t r hwf hs hf => ?_, rfl, rfl, rfl, rfl, rfl, rfl, rfl⟩
  obtain ⟨ha, kind, info, rfl, -, ⟨i, hi, hraises⟩ | hfetch⟩ := step_faulted hs hf
  · cases hraises with
    | registerIndex hmem hn => exact ⟨i, hi, _, hmem, hn, rfl⟩
    | pushOverflow h0 => exact ⟨rfl, h0, _, .inl hi⟩
    | callOverflow h0 => exact ⟨rfl, h0, _, .inr hi⟩
    | popUnderflow hr hv =>
      next n r =>
      by_cases h7 : r = spIndex
      · subst h7
        exact ⟨rfl, .inr (.inr ⟨n, hi, hr, hv⟩)⟩
      · rw [spAfterLoad_of_ne h7] at hv
        exact ⟨rfl, .inr (.inl ⟨n, hi, fun hn => h7 (Fin.ext (hr.symm.trans hn)), hv⟩)⟩
    | retUnderflow hsp => exact ⟨rfl, .inl ⟨hi, hsp⟩⟩
    | returnAddress hpc =>
      next n =>
      have hwidth : s.pc + 2 ≤ 256 := fetch_width ha hi
      exact ⟨Nat.le_antisymm hwidth hpc, by omega, n, hi⟩
  · obtain ⟨op, hop, h⟩ | ⟨hfault, hcause⟩ := fetch_error_cause ha (State.pc_le_of_wf hwf) hfetch
    · cases hop
      obtain ⟨hbyte, hillegal⟩ := h
      exact ⟨op, hbyte, hillegal, rfl⟩
    · cases hfault
      exact ⟨rfl, hcause⟩

end Sys2Proof.Machine
end

section
/-! The decoder and the encoder are inverse (rules R60 to R64), admissible tables (rule R65), and the step that runs
the instruction whose bytes stand at `pc` (rules R80 to R85). -/

namespace Sys2Proof

/-! ## Decoding an encoding -/

/-- The decoder answers the instruction whose opcode byte it is given, where the candidate operand bytes begin with
the instruction's operands: those count as present, and only those are read. -/
theorem decode_byte_of_operands {t : Opcodes} (ht : t.admissible = true) (i : Instr) {b1 b2 : Option Byte}
    (h1 : ∀ v, i.operands[0]? = some v → b1 = some v) (h2 : ∀ v, i.operands[1]? = some v → b2 = some v) :
    decode t (t.byte i.mnemonic) b1 b2 = .ok i := by
  simp only [decode, decodeOpcode_byte ht, opcodeWidth, Opcodes.topBits_byte ht]
  cases i with
  | hlt | ret => rfl
  | ldi | mul | add | cmp =>
    obtain rfl := h1 _ rfl
    obtain rfl := h2 _ rfl
    rfl
  | prn | push | pop | call | jmp | jeq | jne =>
    obtain rfl := h1 _ rfl
    rfl

/-- Settles O2: the operands stand after the opcode, and as many bytes as they are are dropped. -/
theorem decodeOfEncodeIsIdentity : Obligations.DecodeOfEncodeIsIdentity := by
  intro t i rest ht
  have hoperand (k : Nat) (v : Byte) (hv : i.operands[k]? = some v) : (i.operands ++ rest)[k]? = some v :=
    (List.getElem?_append_left (List.getElem?_eq_some_iff.mp hv).1).trans hv
  have hdrop : (i.operands ++ rest).drop (topBits (t.byte i.mnemonic)) = rest :=
    List.drop_left' (i.length_operands.trans (Opcodes.topBits_byte ht _).symm)
  simp only [encode, List.cons_append, decodeBytes, decode_byte_of_operands ht i (hoperand 0) (hoperand 1), hdrop]

/-! ## Encoding what was decoded -/

/-- An instruction formed from a mnemonic has the operand bytes its shape counts (rule R62). -/
theorem Mnemonic.operands_withOperands (m : Mnemonic) (b1 b2 : Byte) :
    (m.withOperands b1 b2).operands = [b1, b2].take m.operandCount := by cases m <;> rfl

/-- The first at most two bytes of a list that has them, read one by one. -/
theorem take_of_getElem? {l : List Byte} {k : Nat} (h1 : 1 ≤ k → l[0]?.isSome = true)
    (h2 : k = 2 → l[1]?.isSome = true) (hk : k ≤ 2) : [l[0]?.getD 0, l[1]?.getD 0].take k = l.take k := by
  obtain rfl | rfl | rfl : k = 0 ∨ k = 1 ∨ k = 2 := by omega
  · rfl
  · match l with
    | a :: l => rfl
    | [] => cases h1 (by omega)
  · match l with
    | a :: b :: l => rfl
    | [_] | [] => cases h2 rfl

/-- Settles O3: the decoder read the operand bytes of the instruction it answers, and returns the bytes after them. -/
theorem encodeOfDecodeIsIdentity : Obligations.EncodeOfDecodeIsIdentity := by
  intro t bytes i rest ht h
  cases bytes with
  | nil => cases h
  | cons op tail =>
    cases hd : decode t op tail[0]? tail[1]? with
    | error e => simp [decodeBytes, hd] at h
    | ok j =>
      simp only [decodeBytes, hd, Except.ok.injEq, Prod.mk.injEq] at h
      obtain ⟨rfl, rfl⟩ := h
      obtain ⟨m, hm, rfl, h1, h2⟩ := decode_ok hd
      obtain rfl := byte_of_decodeOpcode hm
      rw [Opcodes.topBits_byte ht] at h1 h2 ⊢
      have hoperands := m.operands_withOperands (tail[0]?.getD 0) (tail[1]?.getD 0)
      rw [take_of_getElem? h1 h2 m.operandCount_le] at hoperands
      rw [encode, Mnemonic.mnemonic_withOperands, hoperands, List.cons_append, List.take_append_drop]

/-! ## Admissible tables -/

/-- Rule R65's condition, on the bytes of the mnemonics. -/
theorem Opcodes.nodup_values_iff {t : Opcodes} : t.values.Nodup ↔ ∀ m m', t.byte m = t.byte m' → m = m' := by
  rw [Opcodes.values, List.nodup_map_iff_inj_on (by decide)]
  simp only [Mnemonic.mem_all, true_imp_iff]

namespace Machine

/-- Settles O7: rule R65's condition as the model tests it, and the tests that launch and a step begin with. -/
theorem inadmissibleOpcodesAreRefused : Obligations.InadmissibleOpcodesAreRefused := by
  refine ⟨fun t => ?_, fun c l ha => ?_, fun s hr ha => ?_⟩
  · rw [Opcodes.admissible_iff, Opcodes.nodup_values_iff]
    rfl
  · simp only [launch, ha, Bool.not_false, if_true]
  · simp only [step, notStepping, hr, ha, Bool.false_eq_true, if_false]

/-! ## The step that runs the instruction at `pc` -/

/-- Settles O30: the fetch is the decoder's answer, and the step runs what is fetched. -/
theorem stepRunsTheDecodedInstruction : Obligations.StepRunsTheDecodedInstruction := by
  intro s op i hs hp hop hd
  exact step_of_fetch_ok hs.1 hs.2 (by rw [fetch_eq_decode hp hop, hd]; rfl)

/-- Settles O31: the operands that stand after the opcode are the candidate bytes the decoder is given. -/
theorem stepRunsTheEncodedInstruction : Obligations.StepRunsTheEncodedInstruction := by
  intro s i hs hp hbytes
  have hoperand (k : Nat) (v : Byte) (hv : i.operands[k]? = some v) : s.memByte? (s.pc + (k + 1)) = some v := by
    obtain ⟨hk, rfl⟩ := List.getElem?_eq_some_iff.mp hv
    exact hbytes (k + 1) (Nat.succ_lt_succ hk)
  exact stepRunsTheDecodedInstruction s _ i hs hp (hbytes 0 (Nat.succ_pos _))
    (decode_byte_of_operands hs.2 i (hoperand 0) (hoperand 1))

end Machine

end Sys2Proof
end

section
/-! What an instruction changes and what it leaves unchanged (rules R85, R162): one inversion lemma for all the
instructions, the frames that follow from it, and the steps that they explain. -/

namespace Sys2Proof.Machine

/-! ## All that an instruction can do -/

/-- The instruction, run from `s`, completes with the next state given: each rule of 41_register_io.md to 44_jumps.md
past its checks. -/
inductive Completes (s : State) : Instr → State → Prop
  | hlt : Completes s .hlt { s with run := .halted }
  | ldi {n imm : Byte} {r : Fin 8} (hr : n.toNat = r.val) :
      Completes s (.ldi n imm) ((s.setReg r imm).selectPc (.seq 3))
  | prn {n : Byte} {r : Fin 8} (hr : n.toNat = r.val) :
      Completes s (.prn n) ((s.emit (s.reg r).toNat).selectPc (.seq 2))
  | mul {a b : Byte} {ra rb : Fin 8} (ha : a.toNat = ra.val) (hb : b.toNat = rb.val) :
      Completes s (.mul a b) { s with
        x := s.x.set ra (lowByte (aluProduct (s.reg ra) (s.reg rb))),
        out := if s.cfg.mulEmitsOutput then s.out ++ [aluProduct (s.reg ra) (s.reg rb)] else s.out,
        pc := s.pc + 3 }
  | add {a b : Byte} {ra rb : Fin 8} (ha : a.toNat = ra.val) (hb : b.toNat = rb.val) :
      Completes s (.add a b) ((s.setReg ra (aluAdd (s.reg ra) (s.reg rb))).selectPc (.seq 3))
  | cmp {a b : Byte} {ra rb : Fin 8} (ha : a.toNat = ra.val) (hb : b.toNat = rb.val) :
      Completes s (.cmp a b) ((s.setFl (compareFlags (s.reg ra) (s.reg rb))).selectPc (.seq 3))
  | push {n : Byte} {r : Fin 8} (hr : n.toNat = r.val) (h0 : s.sp ≠ 0) : Completes s (.push n) (pushed s r)
  | pop {n : Byte} {r : Fin 8} (hr : n.toNat = r.val) (hv : (spAfterLoad s r).toNat < 255) :
      Completes s (.pop n) (((s.setReg r s.top).setSp (spAfterLoad s r + 1)).selectPc (.seq 2))
  | call {n : Byte} {r : Fin 8} (hr : n.toNat = r.val) (h0 : s.sp ≠ 0) (hpc : s.pc + 2 ≤ 255) :
      Completes s (.call n) (called s r)
  | ret (hsp : s.sp.toNat < 255) : Completes s .ret ((s.setSp (s.sp + 1)).selectPc (.stack s.top))
  | jmp {n : Byte} {r : Fin 8} (hr : n.toNat = r.val) : Completes s (.jmp n) (s.selectPc (.reg (s.reg r)))
  | jeq {n : Byte} {r : Fin 8} (hr : n.toNat = r.val) :
      Completes s (.jeq n) (s.selectPc (if equalSet s.fl then .reg (s.reg r) else .seq 2))
  | jne {n : Byte} {r : Fin 8} (hr : n.toNat = r.val) :
      Completes s (.jne n) (s.selectPc (if !equalSet s.fl then .reg (s.reg r) else .seq 2))

section
variable {i : Instr} {s t : State}

/-- All that an instruction that answers a next state can have done: it completed, or it took a fault. -/
theorem exec_next (he : exec i s = .next t) : Completes s i t ∨ ∃ kind info, t = s.trap kind info := by
  cases i with
  | hlt => cases he; exact .inl .hlt
  | ldi n imm =>
    obtain ⟨r, hr, rfl⟩ | ⟨-, rfl⟩ := execLdi_next he
    · exact .inl (.ldi hr)
    · exact .inr ⟨_, _, rfl⟩
  | prn n =>
    obtain ⟨r, hr, rfl⟩ | ⟨-, rfl⟩ := execPrn_next he
    · exact .inl (.prn hr)
    · exact .inr ⟨_, _, rfl⟩
  | mul a b =>
    obtain ⟨ra, rb, ha, hb, rfl⟩ | ⟨-, rfl⟩ | ⟨-, -, rfl⟩ := execMul_next he
    · exact .inl (.mul ha hb)
    all_goals exact .inr ⟨_, _, rfl⟩
  | add a b =>
    obtain ⟨ra, rb, ha, hb, rfl⟩ | ⟨-, rfl⟩ | ⟨-, -, rfl⟩ := execAdd_next he
    · exact .inl (.add ha hb)
    all_goals exact .inr ⟨_, _, rfl⟩
  | cmp a b =>
    obtain ⟨ra, rb, ha, hb, rfl⟩ | ⟨-, rfl⟩ | ⟨-, -, rfl⟩ := execCmp_next he
    · exact .inl (.cmp ha hb)
    all_goals exact .inr ⟨_, _, rfl⟩
  | push n =>
    obtain ⟨r, hr, h0, rfl⟩ | ⟨-, -, rfl⟩ | ⟨-, rfl⟩ := execPush_next he
    · exact .inl (.push hr h0)
    all_goals exact .inr ⟨_, _, rfl⟩
  | pop n =>
    obtain ⟨r, hr, hv, rfl⟩ | ⟨r, -, -, rfl⟩ | ⟨-, rfl⟩ := execPop_next he
    · exact .inl (.pop hr (by omega))
    all_goals exact .inr ⟨_, _, rfl⟩
  | call n =>
    obtain ⟨r, hr, h0, hpc, rfl⟩ | ⟨-, -, rfl⟩ | ⟨-, -, -, rfl⟩ | ⟨-, rfl⟩ := execCall_next he
    · exact .inl (.call hr h0 hpc)
    all_goals exact .inr ⟨_, _, rfl⟩
  | ret =>
    obtain ⟨hsp, rfl⟩ | ⟨-, rfl⟩ := execRet_next he
    · exact .inl (.ret (by omega))
    · exact .inr ⟨_, _, rfl⟩
  | jmp n =>
    obtain ⟨r, hr, rfl⟩ | ⟨-, rfl⟩ := jumpIf_next (taken := true) he
    · exact .inl (.jmp hr)
    · exact .inr ⟨_, _, rfl⟩
  | jeq n =>
    obtain ⟨r, hr, rfl⟩ | ⟨-, rfl⟩ := jumpIf_next he
    · exact .inl (.jeq hr)
    · exact .inr ⟨_, _, rfl⟩
  | jne n =>
    obtain ⟨r, hr, rfl⟩ | ⟨-, rfl⟩ := jumpIf_next he
    · exact .inl (.jne hr)
    · exact .inr ⟨_, _, rfl⟩

/-! ## The frames

One for each piece of state; those of `fl` and `out` are `exec_fl` and `exec_out`. -/

theorem exec_cfg (he : exec i s = .next t) : t.cfg = s.cfg := by
  obtain hc | ⟨kind, info, rfl⟩ := exec_next he
  · cases hc <;> rfl
  · rfl

/-- Only HLT halts; every other instruction keeps `run` or takes a fault. -/
theorem exec_run (hi : i ≠ .hlt) (he : exec i s = .next t) : t.run = s.run ∨ ∃ r, t.run = .faulted r := by
  obtain hc | ⟨kind, info, rfl⟩ := exec_next he
  · refine .inl ?_
    cases hc with
    | hlt => exact absurd rfl hi
    | _ => rfl
  · exact .inr ⟨_, rfl⟩

/-- Memory is as it was, or a PUSH or a CALL has pushed a byte. -/
theorem exec_mem (he : exec i s = .next t) :
    t.mem = s.mem ∨ ((∃ n, i = .push n ∨ i = .call n) ∧ s.sp ≠ 0 ∧ ∃ v, t.mem = (s.decSp.storeTop v).mem) := by
  obtain hc | ⟨kind, info, rfl⟩ := exec_next he
  · cases hc with
    | push hr h0 => exact .inr ⟨⟨_, .inl rfl⟩, h0, _, rfl⟩
    | call hr h0 => exact .inr ⟨⟨_, .inr rfl⟩, h0, _, rfl⟩
    | _ => exact .inl rfl
  · exact .inl rfl

theorem exec_mem_eq (hpush : ∀ n, i ≠ .push n) (hcall : ∀ n, i ≠ .call n) (he : exec i s = .next t) :
    t.mem = s.mem := by
  obtain h | ⟨⟨n, hi | hi⟩, -⟩ := exec_mem he
  · exact h
  · exact absurd hi (hpush n)
  · exact absurd hi (hcall n)

/-- The instruction may write register `q`: as its destination, or as the SP it moves. -/
def WritesReg (q : Fin 8) : Instr → Prop
  | .ldi n _ | .mul n _ | .add n _ => n.toNat = q.val
  | .pop n => n.toNat = q.val ∨ q = spIndex
  | .push _ | .call _ | .ret => q = spIndex
  | .hlt | .prn _ | .cmp _ _ | .jmp _ | .jeq _ | .jne _ => False

theorem exec_reg {q : Fin 8} (hq : ¬ WritesReg q i) (he : exec i s = .next t) : t.reg q = s.reg q := by
  have hne {n : Byte} {r : Fin 8} (hr : n.toNat = r.val) (h : ¬ n.toNat = q.val) : r ≠ q := fun e => h (e ▸ hr)
  obtain hc | ⟨kind, info, rfl⟩ := exec_next he
  · cases hc with
    | ldi hr => exact s.reg_setReg_ne _ (hne hr hq)
    | mul ha hb => exact s.reg_setReg_ne _ (hne ha hq)
    | add ha hb => exact s.reg_setReg_ne _ (hne ha hq)
    | push hr h0 => exact (s.reg_decSp q).trans (if_neg hq)
    | call hr h0 hpc => exact (s.reg_decSp q).trans (if_neg hq)
    | pop hr hv =>
      obtain ⟨hdest, hsp⟩ := not_or.mp hq
      exact (State.reg_setReg_ne _ _ (Ne.symm hsp)).trans (s.reg_setReg_ne _ (hne hr hdest))
    | ret hsp => exact s.reg_setReg_ne _ (Ne.symm hq)
    | hlt | prn | cmp | jmp | jeq | jne => rfl
  · rfl

end

/-- Settles O26: none of these instructions writes a register or pushes, and each other piece of state has its
frame. -/
theorem noRegisterWriteFrame : Obligations.NoRegisterWriteFrame := by
  intro i s t hi he
  have hreg (q : Fin 8) : ¬ WritesReg q i := by
    obtain rfl | ⟨n, rfl | rfl | rfl | rfl⟩ | ⟨a, b, rfl⟩ := hi <;> exact id
  have hmem : t.mem = s.mem := by
    obtain rfl | ⟨n, rfl | rfl | rfl | rfl⟩ | ⟨a, b, rfl⟩ := hi <;> exact exec_mem_eq (by simp) (by simp) he
  have hmul (a b : Byte) : i ≠ .mul a b := by
    obtain rfl | ⟨n, rfl | rfl | rfl | rfl⟩ | ⟨a, b, rfl⟩ := hi <;> simp
  exact ⟨fun q => exec_reg (hreg q) he, fun a => by rw [hmem], hmem, exec_cfg he, fun hcmp => exec_fl hcmp he,
    fun hprn => exec_out hprn hmul he, fun hhlt => exec_run hhlt he⟩

/-- Settles O27: operand 1 is the one register these instructions write, and each other piece of state has its
frame. -/
theorem registerWriteFrame : Obligations.RegisterWriteFrame := by
  intro i d s t hi he
  have hreg (q : Fin 8) (hq : d.toNat ≠ q.val) : ¬ WritesReg q i := by
    obtain ⟨imm, rfl⟩ | ⟨b, rfl | rfl⟩ := hi <;> exact hq
  have hmem : t.mem = s.mem := by
    obtain ⟨imm, rfl⟩ | ⟨b, rfl | rfl⟩ := hi <;> exact exec_mem_eq (by simp) (by simp) he
  have hfl : t.fl = s.fl := by
    obtain ⟨imm, rfl⟩ | ⟨b, rfl | rfl⟩ := hi <;> exact exec_fl (by simp) he
  have hout (hmul : ∀ b, i ≠ .mul d b) : t.out = s.out := by
    obtain ⟨imm, rfl⟩ | ⟨b, rfl | rfl⟩ := hi
    · exact exec_out (by simp) (by simp) he
    · exact exec_out (by simp) (by simp) he
    · exact absurd rfl (hmul b)
  have hrun : t.run = s.run ∨ ∃ r, t.run = .faulted r := by
    obtain ⟨imm, rfl⟩ | ⟨b, rfl | rfl⟩ := hi <;> exact exec_run (by simp) he
  exact ⟨fun q hq => exec_reg (hreg q hq) he, fun a => by rw [hmem], hmem, hfl, exec_cfg he, hout, hrun⟩

/-- Settles O28: SP is the one register these instructions write, and a push writes the byte at the decremented SP. -/
theorem stackStoreFrame : Obligations.StackStoreFrame := by
  intro i s t hi he
  have hreg (q : Fin 8) (hq : q ≠ 7) : ¬ WritesReg q i := by
    obtain ⟨n, rfl | rfl⟩ := hi <;> exact hq
  have hmem (slot : Nat) (hslot : s.decSp.sp.toNat = slot) (a : Nat) (ha : a ≠ slot) :
      t.mem.read a = s.mem.read a := by
    obtain h | ⟨-, -, v, h⟩ := exec_mem he
    · rw [h]
    · rw [h, State.storeTop_mem, Memory.read_write, hslot, if_neg ha.symm, State.decSp_mem]
  obtain ⟨n, rfl | rfl⟩ := hi <;>
    exact ⟨fun q hq => exec_reg (hreg q hq) he, hmem, exec_fl (by simp) he, exec_out (by simp) (by simp) he,
      exec_cfg he, exec_run (by simp) he⟩

/-- Settles O29: SP and POP's operand are the registers these instructions write, and each other piece of state has
its frame. -/
theorem stackLoadFrame : Obligations.StackLoadFrame := by
  intro i s t hi he
  have hreg (q : Fin 8) (hq : q ≠ 7) (hpop : ∀ n, i = .pop n → n.toNat ≠ q.val) : ¬ WritesReg q i := by
    obtain ⟨n, rfl⟩ | rfl := hi
    · exact not_or.mpr ⟨hpop n rfl, hq⟩
    · exact hq
  have hmem : t.mem = s.mem := by
    obtain ⟨n, rfl⟩ | rfl := hi <;> exact exec_mem_eq (by simp) (by simp) he
  obtain ⟨n, rfl⟩ | rfl := hi <;>
    exact ⟨fun q hq hpop => exec_reg (hreg q hq hpop) he, fun a => by rw [hmem], hmem, exec_fl (by simp) he,
      exec_out (by simp) (by simp) he, exec_cfg he, exec_run (by simp) he⟩

/-! ## What a step can do by them -/

/-- Settles O57: neither an instruction nor a fetch-stage fault writes the configuration. -/
theorem stepsKeepTheConfiguration : Obligations.StepsKeepTheConfiguration := by
  intro s t hs
  obtain ⟨-, -, ⟨i, -, he⟩ | ⟨f, -, rfl⟩⟩ := step_next hs
  · exact exec_cfg he
  · rfl

/-- Settles O35: the step began Running, so only HLT's write of `run` can have left it Halted. -/
theorem onlyHltHalts : Obligations.OnlyHltHalts := by
  intro s t hs hhalt
  obtain ⟨hrun, -, ⟨i, hi, he⟩ | ⟨f, -, rfl⟩⟩ := step_next hs
  · by_cases hhlt : i = .hlt
    · subst hhlt
      cases he
      exact ⟨hi, rfl⟩
    · obtain h | ⟨r, h⟩ := exec_run hhlt he
      · rw [h, hrun] at hhalt
        cases hhalt
      · rw [h] at hhalt
        cases hhalt
  · cases hhalt

/-- Settles O47: a step that changes a byte ran an instruction that pushed, and a push writes the byte at SP - 1
alone. -/
theorem onlyPushAndCallWriteMemory : Obligations.OnlyPushAndCallWriteMemory := by
  intro s t a hs hne
  obtain ⟨-, -, ⟨i, hi, he⟩ | ⟨f, -, rfl⟩⟩ := step_next hs
  · obtain h | ⟨⟨n, hpush⟩, h0, v, h⟩ := exec_mem he
    · exact absurd (by rw [h]) hne
    · have hslot : a = s.sp.toNat - 1 := by
        by_contra hc
        exact hne (by rw [h, State.read_decSp_storeTop h0, if_neg hc])
      refine ⟨⟨n, by simpa only [hi, Except.ok.injEq] using hpush⟩, ?_⟩
      have : s.sp.toNat ≠ 0 := fun e => h0 (BitVec.eq_of_toNat_eq e)
      omega
  · exact absurd rfl hne

/-! ## The ALU's unsupported tags (rules R110, R117) -/

/-- Settles O24: the ALU rejects the tag after both operand checks, and before anything is written. -/
theorem otherAluTagsAreUnsupported : Obligations.OtherAluTagsAreUnsupported := by
  refine ⟨fun _ _ _ => rfl, fun s a b k ha hb => ?_⟩
  unfold aluInstr withRegs
  rw [withReg_reg (r := ⟨a.toNat, ha⟩) rfl, withReg_reg (r := ⟨b.toNat, hb⟩) rfl]
  rfl

/-- Settles O25: no check of an instruction has that fault, nor has the fetch stage. -/
theorem unsupportedAluOperationNeverRaised : Obligations.UnsupportedAluOperationNeverRaised := by
  refine ⟨fun s t r hs hf => ?_, by decide⟩
  obtain ⟨-, kind, info, rfl, -, ⟨i, -, hraises⟩ | hfetch⟩ := step_faulted hs hf
  · cases hraises <;> simp
  · obtain ⟨h, -⟩ | ⟨h, -⟩ | ⟨h, -⟩ | ⟨-, -, h⟩ := fetch_error hfetch <;> cases h <;> simp

end Sys2Proof.Machine
end

section
/-! The invariant of the state along steps and runs (rules R23, R27, R29, R161), reset and launch (rules R32, R183,
R185), and the blocks that have no step (rule R80). -/

namespace Sys2Proof.Machine

/-! ## Every step keeps the invariant -/

theorem byte_toNat_le (v : Byte) : v.toNat ≤ 255 := Nat.le_of_lt_succ v.isLt

theorem State.wf_iff {s : State} :
    s.wf = true ↔ s.pc ≤ 256 ∧ s.mem.wf = true ∧ (∀ v ∈ s.out, v ≤ 65025) ∧ s.run.wf s.pc = true := by
  simp [State.wf, and_assoc]

theorem RunState.wf_of_not_faulted {run : RunState} (h : run.isFaulted = false) (pc : Nat) : run.wf pc = true := by
  cases run with
  | faulted r => cases h
  | running | halted => rfl

/-- What a PRN or a MUL emits is at most 255 * 255. -/
theorem Emits.le {i : Instr} {s : State} {l : List Nat} (h : Emits i s l) {v : Nat} (hv : v ∈ l) : v ≤ 65025 := by
  obtain ⟨n, r, -, -, rfl⟩ | ⟨a, b, ra, rb, -, -, -, -, rfl⟩ := h (List.ne_nil_of_mem hv)
  · obtain rfl := List.mem_singleton.mp hv
    exact (byte_toNat_le _).trans (by decide)
  · obtain rfl := List.mem_singleton.mp hv
    exact aluProduct_le (s.reg ra) (s.reg rb)

theorem exec_mem_wf {i : Instr} {s t : State} (hm : s.mem.wf = true) (he : exec i s = .next t) :
    t.mem.wf = true := by
  obtain h | ⟨-, -, v, h⟩ := exec_mem he
  · exact h ▸ hm
  · exact h ▸ State.memWrite_wf (s := s.decSp) _ v hm

/-- Where a completing step leaves `pc`: by SEQ after the instruction, which lies within memory, or at the value of a
byte. -/
theorem step_pc_le {i : Instr} {s t : State} (hpc : s.pc ≤ 256) (hi : fetch s = .ok i) (hs : step s = .next t)
    (hc : t.run.isFaulted = false) : t.pc ≤ 256 := by
  have hbyte (v : Byte) : v.toNat ≤ 256 := Nat.le_succ_of_le (byte_toNat_le v)
  obtain ⟨-, ha, -⟩ := step_next hs
  have hwidth := fetch_width ha hi
  have hsel := pcMultiplexerSources s t i hi hs hc
  cases i with
  | hlt => exact hsel ▸ hpc
  | ldi | mul | add | cmp | prn | push | pop => exact hsel ▸ hwidth
  | jmp n | call n =>
    obtain ⟨r, -, h⟩ := hsel
    exact h ▸ hbyte _
  | jeq n | jne n =>
    obtain ⟨r, -, h⟩ := hsel
    rw [h]
    split
    · exact hbyte _
    · exact hwidth
  | ret => exact hsel ▸ hbyte _

/-- A record that a step writes is one the block can make: the info and the address that the causes of rule R160 leave
possible. -/
theorem step_faulted_wf {s t : State} {r : FaultRecord} (hwf : s.wf = true) (hs : step s = .next t)
    (hf : t.run = .faulted r) : r.wf = true ∧ r.pc = s.pc := by
  obtain ⟨hcause, -⟩ := faultCausesAndCodes
  have hcause := hcause s t r hwf hs hf
  obtain ⟨-, hpc⟩ := faultsWriteOnlyTheRunState s t r hs hf
  have hle := State.pc_le_of_wf hwf
  refine ⟨?_, hpc⟩
  obtain ⟨kind, info, pc⟩ := r
  obtain rfl : pc = s.pc := hpc
  cases kind with
  | invalidOpcode =>
    obtain ⟨op, hop, -, rfl⟩ := hcause
    obtain ⟨hpc, -⟩ := State.memByte?_eq_some.mp hop
    exact decide_eq_true ⟨byte_toNat_le op, hpc⟩
  | unsupportedAluOperation => exact hcause.elim
  | outOfBounds kind =>
    cases kind with
    | fetch =>
      obtain ⟨rfl, hcause⟩ := hcause
      have hlow : 254 ≤ s.pc := by
        obtain h | ⟨-, h⟩ | ⟨m, -, h⟩ := hcause
        · omega
        · exact h
        · have := m.operandCount_le
          omega
      exact decide_eq_true ⟨rfl, hlow, hle⟩
    | registerIndex =>
      obtain ⟨i, hi, n, -, hn, rfl⟩ := hcause
      obtain ⟨hpc, -⟩ := fetch_ok hi
      exact decide_eq_true ⟨hn, byte_toNat_le n, hpc⟩
    | stackOverflow =>
      obtain ⟨rfl, -, n, hi | hi⟩ := hcause
      all_goals
        obtain ⟨hpc, -⟩ := fetch_ok hi
        exact decide_eq_true ⟨rfl, hpc⟩
    | stackUnderflow =>
      obtain ⟨rfl, ⟨hi, -⟩ | ⟨n, hi, -⟩ | ⟨n, hi, -⟩⟩ := hcause
      all_goals
        obtain ⟨hpc, -⟩ := fetch_ok hi
        exact decide_eq_true ⟨rfl, hpc⟩
    | returnAddress =>
      obtain ⟨rfl, hpc, -⟩ := hcause
      exact decide_eq_true ⟨rfl, hpc⟩

/-- Settles O40: a faulting step writes `run` alone, with a sound record; any other step ran an instruction, and each
piece of state the instruction may write keeps its bound. -/
theorem stepKeepsTheInvariant : Obligations.StepKeepsTheInvariant := by
  intro s t hwf hs
  obtain ⟨hpc, hmem, hout, -⟩ := State.wf_iff.mp hwf
  cases hc : t.run.isFaulted with
  | true =>
    cases hf : t.run with
    | running | halted => simp [hf, RunState.isFaulted] at hc
    | faulted r =>
      obtain ⟨hrecord, hat⟩ := step_faulted_wf hwf hs hf
      obtain ⟨rfl, -⟩ := faultsWriteOnlyTheRunState s t r hs hf
      have hrun : (r.wf && decide (r.pc = s.pc)) = true := by simp [hrecord, hat]
      exact State.wf_iff.mpr ⟨hpc, hmem, hout, hrun⟩
  | false =>
    obtain ⟨-, -, ⟨i, hi, he⟩ | ⟨f, -, rfl⟩⟩ := step_next hs
    · obtain ⟨l, hl, hemits⟩ := exec_appends he
      refine State.wf_iff.mpr ⟨step_pc_le hpc hi hs hc, exec_mem_wf hmem he, fun v hv => ?_,
        RunState.wf_of_not_faulted hc t.pc⟩
      rw [hl] at hv
      exact (List.mem_append.mp hv).elim (hout v) hemits.le
    · cases hc

/-! ## Reset and launch -/

/-- All that a launch that starts the block can have done. -/
theorem launch_ok {c : Config} {l : LaunchArgs} {s : State} (h : launch c l = .ok s) :
    c.opcodes.admissible = true ∧ l.image.length ≤ 256 ∧ s = State.resetWith c l := by
  simp only [launch, imageFits, Bool.not_eq_true', decide_eq_false_iff_not] at h
  split at h
  · cases h
  · next ha =>
    split at h
    · cases h
    · next hl => exact ⟨by simpa using ha, not_not.mp hl, (Except.ok.inj h).symm⟩

/-- Reset meets the invariant with an image that fits: memory is the image's, and nothing is emitted yet. -/
theorem State.resetWith_wf (c : Config) {l : LaunchArgs} (hl : l.image.length ≤ 256) :
    (State.resetWith c l).wf = true :=
  State.wf_iff.mpr ⟨Nat.zero_le _, Memory.wf_image hl, nofun, rfl⟩

/-- Settles O45: the zeros and the empty image fit, and reset from them is written out. -/
theorem resetIsTheEmptyLaunch : Obligations.ResetIsTheEmptyLaunch :=
  launch_of_fits (by decide) (Nat.zero_le _)

/-- Settles O41: `State.reset` is the reset with the empty image, which fits. -/
theorem resetMeetsTheInvariant : Obligations.ResetMeetsTheInvariant :=
  State.resetWith_wf Config.default (l := ⟨Vector.replicate 7 0, 0, []⟩) (Nat.zero_le _)

/-- Settles O44: the image is checked once the table has passed. -/
theorem longImagesAreRefused : Obligations.LongImagesAreRefused := by
  intro c l ha hl
  have hfits : imageFits l.image = false := decide_eq_false (Nat.not_le.mpr hl)
  simp [launch, ha, hfits]

/-- A run keeps the invariant: it stays where it is or goes on from a next state. -/
theorem State.runFor_wf {s : State} (h : s.wf = true) (k : Nat) : (s.runFor k).wf = true := by
  induction k generalizing s with
  | zero => exact h
  | succ k ih =>
    unfold State.runFor
    split
    · next t hs => exact ih (stepKeepsTheInvariant s t h hs)
    · exact h
    · exact h

/-- Settles O42: a launch gives a reset state, and a run keeps the invariant. -/
theorem launchedRunsKeepTheInvariant : Obligations.LaunchedRunsKeepTheInvariant := by
  intro c l s h
  obtain ⟨ha, hl, rfl⟩ := launch_ok h
  exact ⟨State.resetWith_wf c hl, ⟨rfl, ha⟩, State.runFor_wf (State.resetWith_wf c hl)⟩

/-- Settles O46: all memory is 0, and 0x00 is no opcode of the default table. -/
theorem emptyImageFaultsAtOnce : Obligations.EmptyImageFaultsAtOnce := by
  intro c l s hc himage h
  obtain ⟨ha, -, rfl⟩ := launch_ok h
  have hop : (State.resetWith c l).memByte? 0 = some 0 :=
    State.memByte?_eq_some.mpr ⟨Nat.zero_le _, by rw [State.resetWith_read, himage]; rfl⟩
  have hd : decodeOpcode c.opcodes 0 = none := by rw [hc]; decide
  exact step_of_illegal_opcode ⟨rfl, ha⟩ (fun _ => Nat.zero_le _) hop hd

/-! ## Which blocks have a step -/

/-- A register operand check has a next state when what follows it has one. -/
theorem withReg_isNext {n : Byte} {s : State} {k : Fin 8 → Host.Outcome State Fault Refusal}
    (hk : ∀ r, ∃ t, k r = .next t) : ∃ t, withReg n s k = .next t := by
  by_cases hn : n.toNat < 8
  · rw [withReg_reg (r := ⟨n.toNat, hn⟩) rfl]
    exact hk _
  · exact ⟨_, withReg_trap (by omega) s k⟩

theorem ite_isNext {p : Prop} [Decidable p] {o o' : Host.Outcome State Fault Refusal} (h : ∃ t, o = .next t)
    (h' : ∃ t, o' = .next t) : ∃ t, (if p then o else o') = .next t := by
  split
  · exact h
  · exact h'

theorem aluInstr_isNext (tag : AluTag) (a b : Byte) (s : State) : ∃ t, aluInstr tag a b s = .next t :=
  withReg_isNext fun ra => withReg_isNext fun rb => by
    dsimp only
    split
    · exact ⟨_, rfl⟩
    · exact ⟨_, rfl⟩

/-- Every instruction has a next state, from every state. -/
theorem exec_isNext (i : Instr) (s : State) : ∃ t, exec i s = .next t := by
  cases i with
  | hlt => exact ⟨_, rfl⟩
  | ldi | prn | jmp | jeq | jne => exact withReg_isNext fun _ => ⟨_, rfl⟩
  | mul a b => exact aluInstr_isNext .mul a b s
  | add a b => exact aluInstr_isNext .add a b s
  | cmp a b => exact aluInstr_isNext .cmp a b s
  | push | pop => exact withReg_isNext fun _ => ite_isNext ⟨_, rfl⟩ ⟨_, rfl⟩
  | call => exact withReg_isNext fun _ => ite_isNext ⟨_, rfl⟩ (ite_isNext ⟨_, rfl⟩ ⟨_, rfl⟩)
  | ret => exact ite_isNext ⟨_, rfl⟩ ⟨_, rfl⟩

/-- A block whose step has no next state stays as it is. -/
theorem State.runFor_of_fault {s : State} {r : Fault} (h : step s = .fault r) (k : Nat) : s.runFor k = s := by
  cases k with
  | zero => rfl
  | succ k => simp only [State.runFor, h]

/-- Settles O34: a ready block runs an instruction or takes a fetch-stage fault; a stopped one answers before it
fetches. -/
theorem onlyRunningBlocksStep : Obligations.OnlyRunningBlocksStep := by
  refine ⟨fun s hs => ?_, fun s hrun => ?_, fun s r hrun => ?_⟩
  · cases hf : fetch s with
    | ok i => rw [step_of_fetch_ok hs.1 hs.2 hf]; exact exec_isNext i s
    | error f => exact ⟨_, step_of_fetch_error hs.1 hs.2 hf⟩
  · have hstep : step s = .fault .blockHalted := by simp only [step, notStepping, hrun]
    exact ⟨hstep, State.runFor_of_fault hstep⟩
  · have hstep : step s = .fault (.blockFaulted r) := by simp only [step, notStepping, hrun]
    exact ⟨hstep, State.runFor_of_fault hstep⟩

end Sys2Proof.Machine
end

section
/-! The stack and memory across instructions (rules R43, R50, R134, R135), and memory as data (rules R29, R45). -/

namespace Sys2Proof.Machine

/-! ## No push or pop wraps (rule R134) -/

theorem toNat_add_one_of_lt {v : Byte} (h : v.toNat < 255) : (v + 1).toNat = v.toNat + 1 := by bv_omega

/-- Settles O51: past its checks an instruction moves SP by one without wrapping, and a failed check writes `run`
alone. -/
theorem stackNeverWraps : Obligations.StackNeverWraps := by
  obtain ⟨-, -, -, hpush, -⟩ := pushStoresARegister
  obtain ⟨-, -, -, -, hpop, -⟩ := popLoadsARegister
  refine ⟨fun i s t hi he hrun => ?_, fun i s t hi he hrun => ?_, hpush,
    fun s n hn hsp => hpop s n hn (congrArg BitVec.toNat hsp)⟩
  · obtain hc | ⟨kind, info, rfl⟩ := exec_next he
    · obtain ⟨n, rfl | rfl⟩ := hi
      · cases hc with
        | push hr h0 => exact .inl ⟨hrun, (State.push_frame h0 rfl).1⟩
      · cases hc with
        | call hr h0 hpc => exact .inl ⟨hrun, (State.push_frame h0 rfl).1⟩
    · exact .inr ⟨rfl, rfl⟩
  · obtain hc | ⟨kind, info, rfl⟩ := exec_next he
    · obtain rfl | ⟨n, rfl, hn⟩ := hi
      · cases hc with
        | ret hsp => exact .inl ⟨hrun, (congrArg BitVec.toNat (s.sp_setSp _)).trans (toNat_add_one_of_lt hsp)⟩
      · cases hc with
        | pop hr hv =>
          next r =>
          have hne : r ≠ spIndex := fun e => hn (hr.trans (congrArg Fin.val e))
          rw [spAfterLoad_of_ne hne] at hv ⊢
          exact .inl ⟨hrun, (congrArg BitVec.toNat (State.sp_setSp _ _)).trans (toNat_add_one_of_lt hv)⟩
    · exact .inr ⟨rfl, rfl⟩

/-! ## The round trips (rule R135)

A push leaves SP below 255, so the pop that follows does not underflow. -/

theorem toNat_sub_one_lt {v : Byte} (h : v ≠ 0) : (v - 1).toNat < 255 := by bv_omega

/-- The byte a push wrote stands at SP afterwards. -/
theorem State.read_sp_of_push (s : State) (v : Byte) (sel : PcSelect) :
    ((s.decSp.storeTop v).selectPc sel).mem.read ((s.decSp.storeTop v).selectPc sel).sp.toNat = v :=
  (Memory.read_write _ _ _ v).trans (if_pos rfl)

/-- Settles O52: for R7 as for the others, the SP that POP increments is the one PUSH left: the byte PUSH R7 wrote is
the decremented SP itself. -/
theorem pushThenPopIsARoundTrip : Obligations.PushThenPopIsARoundTrip := by
  intro s t u n r hr h0 he hut hread
  rw [exec_push_of_reg hr, if_neg h0] at he
  obtain rfl := Host.Outcome.next.inj he
  have hsp : u.sp = s.sp - 1 := hut.trans s.sp_decSp
  have htop : u.top = s.decSp.reg r := by
    rw [pushed, State.read_sp_of_push, ← pushed, ← hut] at hread
    exact hread
  rw [State.reg_decSp] at htop
  have hload : spAfterLoad u r = s.sp - 1 := by
    unfold spAfterLoad
    split
    · next h => rw [htop, if_pos h]
    · exact hsp
  refine ⟨_, exec_pop_of_fits hr (hload ▸ toNat_sub_one_lt h0), ?_, ?_⟩
  · simp only [hload, State.reg_selectPc, State.setSp, State.reg_setReg, if_true, htop, BitVec.sub_add_cancel]
    split
    · next h => rw [← h]; rfl
    · next h => exact if_neg (Ne.symm h)
  · exact (State.sp_setSp _ _).trans (by rw [hload, BitVec.sub_add_cancel])

/-- Settles O53: RET takes the byte CALL wrote, which is the return address because that fits a byte. -/
theorem callThenRetIsARoundTrip : Obligations.CallThenRetIsARoundTrip := by
  intro s t u n hn h0 hpc he hsp hread
  rw [exec_call_of_reg (r := ⟨n.toNat, hn⟩) rfl, if_neg h0, if_neg (by omega)] at he
  obtain rfl := Host.Outcome.next.inj he
  rw [called, State.read_sp_of_push, ← called, ← hsp] at hread
  have hsp' : u.sp = s.sp - 1 := hsp.trans s.sp_decSp
  obtain ⟨-, hret, -⟩ := retPopsThePc
  refine ⟨_, hret u (hsp' ▸ toNat_sub_one_lt h0), ?_, ?_⟩
  · simp only [hread, BitVec.toNat_ofNat]
    omega
  · exact (State.sp_setSp u _).trans (by rw [hsp', BitVec.sub_add_cancel])

/-! ## A pushed byte is fetched (rule R50) -/

/-- Settles O54: the fetch reads the byte at the slot, and a byte read there decodes as any other. -/
theorem pushedBytesAreFetched : Obligations.PushedBytesAreFetched := by
  intro s t u n r hr h0 he hmem hpc hs hp
  rw [exec_push_of_reg hr, if_neg h0] at he
  obtain rfl := Host.Outcome.next.inj he
  have hbyte : u.memByte? u.pc = some ((pushed s r).reg r) := by
    refine State.memByte?_eq_some.mpr ⟨hpc ▸ byte_toNat_le _, ?_⟩
    rw [hmem, hpc]
    exact State.read_sp_of_push s _ _
  refine ⟨hbyte, fun hhlt => ?_,
    fun hillegal => step_of_illegal_opcode hs hp hbyte (decodeOpcode_eq_none_iff.mpr hillegal)⟩
  have hdecode := decode_byte_of_operands hs.2 .hlt (b1 := u.memByte? (u.pc + 1)) (b2 := u.memByte? (u.pc + 2))
    nofun nofun
  exact stepRunsTheDecodedInstruction u _ .hlt hs hp (hbyte.trans (congrArg some hhlt)) hdecode

/-! ## Memory as data -/

/-- Settles O55: reading after a write, at its address and at others. -/
theorem memoryReadsLastWrite : Obligations.MemoryReadsLastWrite := by
  refine fun s addr v => ⟨?_, fun a ha => ?_, State.memWrite_wf addr v⟩
  · exact (Memory.read_write _ _ _ v).trans (if_pos rfl)
  · exact (Memory.read_write _ _ _ v).trans (if_neg fun e => ha (BitVec.eq_of_toNat_eq e.symm))

/-- In a canonical memory a byte that is not 0 stands at or above the first address. -/
theorem Memory.le_of_read_ne_zero {lo : Nat} {m : Memory} (hm : Memory.wfFrom lo m = true) {a : Nat}
    (h : m.read a ≠ 0) : lo ≤ a := by
  by_contra hc
  exact h (Memory.read_of_lt hm (Nat.not_le.mp hc))

theorem Memory.wfFrom_cons {lo a : Nat} {v : Byte} {m : Memory} :
    Memory.wfFrom lo ((a, v) :: m) = true ↔ lo ≤ a ∧ a < 256 ∧ v ≠ 0 ∧ Memory.wfFrom (a + 1) m = true := by
  simp only [Memory.wfFrom, Bool.and_eq_true, decide_eq_true_eq, and_assoc]

/-- The first cell of a canonical memory holds a byte other than 0, so another canonical memory that reads the same
begins at or below it. -/
theorem Memory.head_le {lo a : Nat} {v : Byte} {m m' : Memory} (hm : Memory.wfFrom lo ((a, v) :: m) = true)
    {lo' : Nat} (hm' : Memory.wfFrom lo' m' = true)
    (h : ∀ b, b < 256 → Memory.read ((a, v) :: m) b = m'.read b) : lo' ≤ a := by
  obtain ⟨-, ha, hv, -⟩ := Memory.wfFrom_cons.mp hm
  refine Memory.le_of_read_ne_zero hm' ?_
  rwa [← h a ha, Memory.read, if_pos rfl]

/-- A memory that reads 0 everywhere lists no cell. -/
theorem Memory.not_wfFrom_of_reads_zero {lo : Nat} {c : Host.Cell} {m : Memory}
    (h : ∀ b, b < 256 → Memory.read (c :: m) b = 0) : ¬ Memory.wfFrom lo (c :: m) = true := by
  intro hm
  obtain ⟨-, ha, -⟩ := Memory.wfFrom_cons.mp hm
  exact absurd (Memory.head_le hm (m' := []) (lo' := 256) rfl h) (Nat.not_le.mpr ha)

/-- Canonical memories that read the same are the same list: their first cells have one address, the least that is
read with a byte other than 0, and below and at it the tails read 0. -/
theorem Memory.eq_of_read_eq {lo : Nat} {m m' : Memory} (hm : Memory.wfFrom lo m = true)
    (hm' : Memory.wfFrom lo m' = true) (h : ∀ a, a < 256 → m.read a = m'.read a) : m = m' := by
  induction m generalizing lo m' with
  | nil =>
    cases m' with
    | nil => rfl
    | cons c m' => exact absurd hm' (Memory.not_wfFrom_of_reads_zero fun b hb => (h b hb).symm)
  | cons c m ih =>
    obtain ⟨a, v⟩ := c
    cases m' with
    | nil => exact absurd hm (Memory.not_wfFrom_of_reads_zero h)
    | cons c' m' =>
      obtain ⟨a', v'⟩ := c'
      obtain ⟨-, ha, hv, htail⟩ := Memory.wfFrom_cons.mp hm
      obtain ⟨-, ha', hv', htail'⟩ := Memory.wfFrom_cons.mp hm'
      obtain rfl : a = a' := Nat.le_antisymm
        (Memory.head_le hm' (Memory.wfFrom_cons.mpr ⟨le_refl a, ha, hv, htail⟩) fun b hb => (h b hb).symm)
        (Memory.head_le hm (Memory.wfFrom_cons.mpr ⟨le_refl a', ha', hv', htail'⟩) h)
      obtain rfl : v = v' := by simpa [Memory.read] using h a ha
      refine congrArg _ (ih htail htail' fun b hb => ?_)
      by_cases hba : b ≤ a
      · rw [Memory.read_of_lt htail (by omega), Memory.read_of_lt htail' (by omega)]
      · have hne : a ≠ b := by omega
        simpa only [Memory.read, if_neg hne] using h b hb

/-- Settles O56: both memories are canonical from address 0. -/
theorem equalMemoriesAreEqualData : Obligations.EqualMemoriesAreEqualData :=
  fun _ _ hm hm' h => Memory.eq_of_read_eq hm hm' h

end Sys2Proof.Machine
end

section
/-! What an instruction does not read: a register it neither names nor uses as SP (40_execute_loop.md to 44_jumps.md),
and the bits of `fl` above bit 0 (rule R116). -/

namespace Sys2Proof.Machine

/-- Settles O49: a jump tolerates a change of `fl` that keeps the EQUAL test, which is bit 0. -/
theorem jumpsTestBitZeroAlone : Obligations.JumpsTestBitZeroAlone := by
  intro i s t f hi hf he
  have hk : Tolerates (fun _ => f) id s i := by
    obtain ⟨n, rfl | rfl⟩ := hi <;> exact hf
  exact exec_mapFlOut_next hk he

/-! ## Changing a register under an instruction -/

theorem State.setReg_comm (s : State) {q r : Fin 8} (h : q ≠ r) (v w : Byte) :
    (s.setReg r v).setReg q w = (s.setReg q w).setReg r v := by
  have hne : (r : Nat) ≠ q := fun e => h (Fin.ext e.symm)
  exact congrArg (fun x => { s with x := x }) (Vector.set_comm v w hne)

section
variable {r : Fin 8} {v : Byte} {s : State}

/-- A register operand check goes on, from the changed state, as it does from the old one: with a register other than
the changed one, where the operand does not name that. -/
theorem withReg_setReg {n : Byte} (hn : (regOperand? n == some r) = false)
    {k k' : Fin 8 → Host.Outcome State Fault Refusal}
    (hk : ∀ q, q ≠ r → k' q = onNext (fun t => t.setReg r v) (k q)) :
    withReg n (s.setReg r v) k' = onNext (fun t => t.setReg r v) (withReg n s k) := by
  unfold withReg
  cases hq : regOperand? n with
  | none => rfl
  | some q => exact hk q (by simpa [hq] using hn)

theorem withRegs_setReg {a b : Byte} (hab : (regOperand? a == some r || regOperand? b == some r) = false)
    {k k' : Fin 8 → Fin 8 → Host.Outcome State Fault Refusal}
    (hk : ∀ p q, p ≠ r → q ≠ r → k' p q = onNext (fun t => t.setReg r v) (k p q)) :
    withRegs a b (s.setReg r v) k' = onNext (fun t => t.setReg r v) (withRegs a b s k) := by
  obtain ⟨ha, hb⟩ := Bool.or_eq_false_iff.mp hab
  exact withReg_setReg ha fun p hp => withReg_setReg hb fun q hq => hk p q hp hq

/-- An instruction's last act, the selection of the next PC, sees no register. -/
theorem next_selectPc_setReg {u w : State} (sel : PcSelect) (huw : u = w.setReg r v) :
    (.next (u.selectPc sel) : Host.Outcome State Fault Refusal) =
      onNext (fun t => t.setReg r v) (.next (w.selectPc sel)) := by
  rw [huw]; rfl

/-- The writing of MUL's answer to a register other than the changed one. -/
theorem State.writeAlu_product_setReg {q : Fin 8} (hq : q ≠ r) (w : Byte) (p : Nat) :
    (s.setReg r v).writeAlu q { result := some w, product := some p } =
      (s.writeAlu q { result := some w, product := some p }).setReg r v := by
  rw [State.writeAlu_product, State.writeAlu_product]
  exact congrArg (fun u : State => { u with out := if s.cfg.mulEmitsOutput then s.out ++ [p] else s.out })
    (s.setReg_comm hq v w)

/-- The shared form of the jumps. -/
theorem jumpIf_setReg (taken : Bool) {n : Byte} (hn : (regOperand? n == some r) = false) :
    jumpIf taken n (s.setReg r v) = onNext (fun t => t.setReg r v) (jumpIf taken n s) :=
  withReg_setReg hn fun q hq => by rw [s.reg_setReg_ne v hq.symm]; rfl

/-! The stack's operations, where the changed register is not SP. -/

section
variable (hr : r ≠ spIndex)
include hr

theorem State.sp_setReg_ne : (s.setReg r v).sp = s.sp := s.reg_setReg_ne v hr

theorem State.top_setReg_ne : (s.setReg r v).top = s.top :=
  congrArg (fun a : Byte => s.mem.read a.toNat) (State.sp_setReg_ne hr)

theorem State.setSp_setReg_ne (w : Byte) : (s.setReg r v).setSp w = (s.setSp w).setReg r v :=
  s.setReg_comm hr.symm v w

theorem State.decSp_setReg_ne : (s.setReg r v).decSp = s.decSp.setReg r v := by
  rw [State.decSp, State.sp_setReg_ne hr, State.setSp_setReg_ne hr, State.decSp]

theorem State.storeTop_setReg_ne (w : Byte) : (s.setReg r v).storeTop w = (s.storeTop w).setReg r v := by
  rw [State.storeTop, State.sp_setReg_ne hr]
  rfl

theorem spAfterLoad_setReg_ne (q : Fin 8) : spAfterLoad (s.setReg r v) q = spAfterLoad s q := by
  rw [spAfterLoad, State.top_setReg_ne hr, State.sp_setReg_ne hr, spAfterLoad]

end

/-- An instruction that neither names the changed register nor uses it as SP gives its next state with the same
change. -/
theorem exec_setReg {i : Instr} (hi : usesReg i r = false) :
    exec i (s.setReg r v) = onNext (fun t => t.setReg r v) (exec i s) := by
  cases i with
  | hlt => rfl
  | ldi n imm => exact withReg_setReg hi fun q hq => next_selectPc_setReg _ (s.setReg_comm hq v imm)
  | prn n => exact withReg_setReg hi fun q hq => by rw [s.reg_setReg_ne v hq.symm]; rfl
  | mul a b =>
    refine withRegs_setReg hi fun p q hp hq => ?_
    rw [s.reg_setReg_ne v hp.symm, s.reg_setReg_ne v hq.symm]
    exact next_selectPc_setReg _ (State.writeAlu_product_setReg hp _ _)
  | add a b =>
    refine withRegs_setReg hi fun p q hp hq => ?_
    rw [s.reg_setReg_ne v hp.symm, s.reg_setReg_ne v hq.symm]
    exact next_selectPc_setReg _ (s.setReg_comm hp v _)
  | cmp a b =>
    refine withRegs_setReg hi fun p q hp hq => ?_
    rw [s.reg_setReg_ne v hp.symm, s.reg_setReg_ne v hq.symm]
    rfl
  | push n =>
    obtain ⟨hn, hsp⟩ := Bool.or_eq_false_iff.mp hi
    have hr : r ≠ spIndex := beq_eq_false_iff_ne.mp hsp
    refine withReg_setReg hn fun q hq => ?_
    rw [State.sp_setReg_ne hr, State.decSp_setReg_ne hr, State.reg_setReg_ne _ v hq.symm,
      State.storeTop_setReg_ne hr, apply_ite (onNext _)]
    rfl
  | pop n =>
    obtain ⟨hn, hsp⟩ := Bool.or_eq_false_iff.mp hi
    have hr : r ≠ spIndex := beq_eq_false_iff_ne.mp hsp
    refine withReg_setReg hn fun q hq => ?_
    rw [spAfterLoad_setReg_ne hr, State.top_setReg_ne hr, s.setReg_comm hq, State.setSp_setReg_ne hr,
      apply_ite (onNext _)]
    rfl
  | call n =>
    obtain ⟨hn, hsp⟩ := Bool.or_eq_false_iff.mp hi
    have hr : r ≠ spIndex := beq_eq_false_iff_ne.mp hsp
    refine withReg_setReg hn fun q hq => ?_
    rw [State.sp_setReg_ne hr, State.decSp_setReg_ne hr, State.reg_setReg_ne _ v hq.symm,
      State.storeTop_setReg_ne hr, apply_ite (onNext _), apply_ite (onNext _)]
    rfl
  | ret =>
    have hr : r ≠ spIndex := beq_eq_false_iff_ne.mp hi
    refine Eq.trans ?_ (apply_ite (onNext _) _ _ _).symm
    rw [exec, execRet, State.sp_setReg_ne hr, State.top_setReg_ne hr, State.setSp_setReg_ne hr]
    rfl
  | jmp n => exact jumpIf_setReg true hi
  | jeq n => exact jumpIf_setReg _ hi
  | jne n => exact jumpIf_setReg _ hi

end

/-- Settles O58: the change of the register commutes with the instruction. -/
theorem unnamedRegistersDoNotMatter : Obligations.UnnamedRegistersDoNotMatter := by
  intro i s t r v hi he
  rw [exec_setReg hi, he]
  rfl

end Sys2Proof.Machine
end

section
/-! Outside the block: the placing of an instruction given as one number (rules R12, R80), and the assembly text
(rule R69). -/

namespace Sys2Proof.Machine

/-! ## The placed word -/

theorem Memory.read_place_of_lt {m : Memory} {a b : Nat} (vs : List Byte) (h : b < a) :
    (m.place a vs).read b = m.read b := by
  induction vs generalizing m a with
  | nil => rfl
  | cons v vs ih =>
    unfold Memory.place
    split
    · rw [ih (by omega), Memory.read_write, if_neg (by omega)]
    · rfl

/-- Bytes placed within memory are read back. -/
theorem Memory.read_place {m : Memory} {a : Nat} {vs : List Byte} (ha : a + vs.length ≤ 256) {k : Nat} {v : Byte}
    (hv : vs[k]? = some v) : (m.place a vs).read (a + k) = v := by
  induction vs generalizing m a k with
  | nil => cases hv
  | cons w vs ih =>
    rw [List.length_cons] at ha
    have ha' : a ≤ 255 := by omega
    rw [Memory.place, if_pos ha']
    cases k with
    | zero =>
      rw [Memory.read_place_of_lt vs (by omega), Memory.read_write, if_pos (by omega)]
      exact Option.some.inj hv
    | succ k =>
      rw [Nat.add_comm k 1, ← Nat.add_assoc]
      exact ih (by omega) hv

theorem State.placeInstr_pc_le (s : State) (bytes : List Byte) : (s.placeInstr bytes).pc ≤ 253 := by
  unfold State.placeInstr
  dsimp only
  split <;> omega

/-- Three placed bytes stand at `pc`, which leaves room for them. -/
theorem State.memByte?_placeInstr (s : State) {bytes : List Byte} (hlen : bytes.length = 3) {k : Nat} {v : Byte}
    (hv : bytes[k]? = some v) : (s.placeInstr bytes).memByte? ((s.placeInstr bytes).pc + k) = some v := by
  obtain ⟨hk, -⟩ := List.getElem?_eq_some_iff.mp hv
  have hpc : (s.placeInstr bytes).pc ≤ 253 := s.placeInstr_pc_le bytes
  have hread : (s.placeInstr bytes).mem.read ((s.placeInstr bytes).pc + k) = v :=
    Memory.read_place (m := s.mem) (a := (s.placeInstr bytes).pc) (by omega) hv
  exact State.memByte?_eq_some.mpr ⟨by omega, hread⟩

/-- A table word that decodes was decoded from its three bytes, all present. -/
theorem decode_of_decodeTableWord {nbits w : Nat} {i : Instr} (h : decodeTableWord nbits w = some i) :
    decode Opcodes.ls8 (tableByte (w % 2 ^ nbits) 0) (some (tableByte (w % 2 ^ nbits) 1))
      (some (tableByte (w % 2 ^ nbits) 2)) = .ok i := by
  simp only [decodeTableWord, tableBytes, decodeBytes, List.getElem?_cons_zero, List.getElem?_cons_succ] at h
  cases hd : decode Opcodes.ls8 (tableByte (w % 2 ^ nbits) 0) (some (tableByte (w % 2 ^ nbits) 1))
      (some (tableByte (w % 2 ^ nbits) 2)) with
  | ok j => simpa [hd] using h
  | error e => simp [hd] at h

/-- Settles O59: the three placed bytes are the ones the decoder is given, whatever stood around them. -/
theorem placedWordIsRun : Obligations.PlacedWordIsRun := by
  intro s nbits w i hc hw
  have hcfg : (s.withFetchWord nbits w).cfg = Config.default := hc
  have hbyte {k : Nat} {v : Byte} (hv : (tableBytes nbits w)[k]? = some v) :=
    s.memByte?_placeInstr (bytes := tableBytes nbits w) rfl hv
  have hready : (s.withFetchWord nbits w).ready := ⟨rfl, by rw [hcfg]; decide⟩
  have hprefetch : (s.withFetchWord nbits w).prefetchOk := by simp [State.prefetchOk, hcfg, Config.default]
  refine stepRunsTheDecodedInstruction _ _ i hready hprefetch (hbyte (k := 0) rfl) ?_
  rw [hcfg, State.withFetchWord, hbyte (k := 1) rfl, hbyte (k := 2) rfl]
  exact decode_of_decodeTableWord hw

end Sys2Proof.Machine

namespace Sys2Proof

/-! ## Numbers and registers as text -/

theorem digit?_of_isDigit {c : Char} (h : c.isDigit = true) : digit? c = some (c.toNat - '0'.toNat) := by
  simp only [Char.isDigit, Bool.and_eq_true, decide_eq_true_eq] at h
  exact if_pos h

theorem digit?_digitChar {d : Nat} (h : d < 10) : digit? d.digitChar = some d := by
  rw [digit?_of_isDigit (by simpa using h), Nat.toNat_digitChar_of_lt_ten h]
  exact congrArg some (Nat.add_sub_cancel_left ..)

/-- The reading of digits with an accumulator is the library's. -/
theorem decimalFrom_of_isDigit {cs : List Char} (h : ∀ c ∈ cs, c.isDigit = true) (acc : Nat) :
    decimalFrom acc cs = some (Nat.ofDigitChars 10 cs acc) := by
  induction cs generalizing acc with
  | nil => simp [decimalFrom]
  | cons c cs ih =>
    have htail := ih fun d hd => h d (List.mem_cons_of_mem c hd)
    simp only [decimalFrom, digit?_of_isDigit (h c List.mem_cons_self), htail, Nat.ofDigitChars_cons]

theorem isDigit_of_mem_toDigits {n : Nat} {c : Char} (h : c ∈ Nat.toDigits 10 n) : c.isDigit = true :=
  Nat.isDigit_of_mem_toDigits (by decide) (by decide) h

/-- An immediate's decimal is read back (rule R68). -/
theorem parseImm_toDigits (v : Byte) : parseImm (Nat.toDigits 10 v.toNat) = some v := by
  have hread : decimalFrom 0 (Nat.toDigits 10 v.toNat) = some v.toNat := by
    rw [decimalFrom_of_isDigit (fun c => isDigit_of_mem_toDigits), Nat.ofDigitChars_ten_toDigits]
  have hne : Nat.toDigits 10 v.toNat ≠ [] := Nat.toDigits_ne_nil
  have hle : v.toNat ≤ 255 := Machine.byte_toNat_le v
  simp only [parseImm, List.isEmpty_iff, hne, if_false, hread, if_pos hle, BitVec.ofNat_toNat,
    BitVec.setWidth_eq]

/-- A register operand that selects a register is one digit, and is read back (rule R67). -/
theorem parseReg_regText {n : Byte} (h : regOk n = true) : parseReg (regText n) = some n := by
  have hn : n.toNat < 8 := of_decide_eq_true h
  rw [regText, Nat.toDigits_of_lt_base (by omega)]
  simp [parseReg, digit?_digitChar (show n.toNat < 10 by omega), hn]

/-! ## Cutting a line at its spaces and comma -/

theorem Mnemonic.ne_space_of_mem_text {m : Mnemonic} {c : Char} (h : c ∈ m.text) : (c != ' ') = true := by
  have hall : (m.text.all fun c => c != ' ') = true := by cases m <;> rfl
  exact List.all_eq_true.mp hall c h

theorem Mnemonic.find?_text (m : Mnemonic) : (Mnemonic.all.find? fun m' => m'.text == m.text) = some m := by
  cases m <;> decide

section
variable (m : Mnemonic) {rest : List Char} (h : ∀ c ∈ rest.head?, c = ' ')
include h

/-- The mnemonic of a line is what stands before its first space. -/
theorem Mnemonic.takeWhile_text_append : (m.text ++ rest).takeWhile (· != ' ') = m.text := by
  rw [List.takeWhile_append_of_pos fun c => Mnemonic.ne_space_of_mem_text]
  cases rest with
  | nil => simp
  | cons c rest => simp [h c rfl]

theorem Mnemonic.dropWhile_text_append : (m.text ++ rest).dropWhile (· != ' ') = rest := by
  rw [List.dropWhile_append_of_pos fun c => Mnemonic.ne_space_of_mem_text]
  cases rest with
  | nil => rfl
  | cons c rest => simp [h c rfl]

end

theorem ne_comma_of_mem_regText {n : Byte} {c : Char} (h : c ∈ regText n) : (c != ',') = true := by
  obtain rfl | h := List.mem_cons.mp h
  · decide
  · refine bne_iff_ne.mpr fun e => ?_
    have := isDigit_of_mem_toDigits h
    subst e
    cases this

/-- The first operand of a line with two is what stands before its comma. -/
theorem takeWhile_regText_append (n : Byte) (text : List Char) :
    (regText n ++ ',' :: text).takeWhile (· != ',') = regText n := by
  rw [List.takeWhile_append_of_pos fun c => ne_comma_of_mem_regText]
  simp

theorem dropWhile_regText_append (n : Byte) (text : List Char) :
    (regText n ++ ',' :: text).dropWhile (· != ',') = ',' :: text := by
  rw [List.dropWhile_append_of_pos fun c => ne_comma_of_mem_regText]
  simp

/-! ## The lines, by operand count -/

theorem assembleLine_text {m : Mnemonic} (hm : m.operandCount = 0) :
    assembleLine m.text = some (m.withOperands 0 0) := by
  have htake := m.takeWhile_text_append (rest := []) (by simp)
  have hdrop := m.dropWhile_text_append (rest := []) (by simp)
  rw [List.append_nil] at htake hdrop
  simp only [assembleLine, htake, m.find?_text, hdrop, hm, if_true, List.isEmpty_nil]

theorem assembleLine_text_reg {m : Mnemonic} (hm : m.operandCount = 1) {n : Byte} (hn : regOk n = true) :
    assembleLine (m.text ++ ' ' :: regText n) = some (m.withOperands n 0) := by
  simp only [assembleLine, m.takeWhile_text_append (rest := ' ' :: regText n) (by simp), m.find?_text,
    m.dropWhile_text_append (rest := ' ' :: regText n) (by simp), hm, List.drop_succ_cons, List.drop_zero,
    parseReg_regText hn, if_true, Nat.one_ne_zero, if_false]

theorem assembleLine_text_reg_comma {m : Mnemonic} (hm : m.operandCount = 2) {a b : Byte} (ha : regOk a = true)
    {text : List Char} (hspace : text.dropWhile (· == ' ') = text)
    (hb : (if m = .ldi then parseImm text else parseReg text) = some b) :
    assembleLine (m.text ++ ' ' :: (regText a ++ ',' :: text)) = some (m.withOperands a b) := by
  simp only [assembleLine, m.takeWhile_text_append (rest := ' ' :: (regText a ++ ',' :: text)) (by simp), m.find?_text,
    m.dropWhile_text_append (rest := ' ' :: (regText a ++ ',' :: text)) (by simp), hm,
    List.drop_succ_cons, List.drop_zero, takeWhile_regText_append, dropWhile_regText_append, hspace,
    parseReg_regText ha, hb]
  rfl

theorem dropWhile_space_toDigits (n : Nat) : (Nat.toDigits 10 n).dropWhile (· == ' ') = Nat.toDigits 10 n := by
  cases hd : Nat.toDigits 10 n with
  | nil => rfl
  | cons c cs =>
    have hdigit : c.isDigit = true := isDigit_of_mem_toDigits (hd ▸ List.mem_cons_self)
    have hne : (c == ' ') = false := beq_eq_false_iff_ne.mpr fun e => by subst e; cases hdigit
    rw [List.dropWhile_cons, hne]
    rfl

/-- Settles O60: a line is cut where it was joined, and each operand is read back. -/
theorem assemblyTextRoundTrip : Obligations.AssemblyTextRoundTrip := by
  intro i hi
  cases i with
  | hlt => exact assembleLine_text (m := .hlt) rfl
  | ret => exact assembleLine_text (m := .ret) rfl
  | ldi n imm =>
    exact assembleLine_text_reg_comma (m := .ldi) rfl hi (dropWhile_space_toDigits _) (parseImm_toDigits imm)
  | prn n => exact assembleLine_text_reg (m := .prn) rfl hi
  | push n => exact assembleLine_text_reg (m := .push) rfl hi
  | pop n => exact assembleLine_text_reg (m := .pop) rfl hi
  | call n => exact assembleLine_text_reg (m := .call) rfl hi
  | jmp n => exact assembleLine_text_reg (m := .jmp) rfl hi
  | jeq n => exact assembleLine_text_reg (m := .jeq) rfl hi
  | jne n => exact assembleLine_text_reg (m := .jne) rfl hi
  | mul a b =>
    obtain ⟨ha, hb⟩ := Bool.and_eq_true_iff.mp hi
    exact assembleLine_text_reg_comma (m := .mul) rfl ha rfl (parseReg_regText hb)
  | add a b =>
    obtain ⟨ha, hb⟩ := Bool.and_eq_true_iff.mp hi
    exact assembleLine_text_reg_comma (m := .add) rfl ha rfl (parseReg_regText hb)
  | cmp a b =>
    obtain ⟨ha, hb⟩ := Bool.and_eq_true_iff.mp hi
    exact assembleLine_text_reg_comma (m := .cmp) rfl ha rfl (parseReg_regText hb)

end Sys2Proof
end
